-- ==== Sys2Proof/Word.lean ====
section
/-!
DEFINITION. The word types of the unit: bytes, frames, and the fixed-width unsigned integers of R30
(`FixedWidthUint<W>` for `W` in 256, 512, 768). A value of width `W` is the bit vector of that width; the
rules' formulas are written over its number `toNat`.
-/

namespace Sys2Proof

/-- A byte: an integer in `[0, 255]` (00_scope.md section 5.2). -/
abbrev Byte := BitVec 8

/-- A byte string; offset 0 is the first byte transmitted (00_scope.md section 5.2). Command frames and
response frames are byte strings (R60, R70). -/
abbrev Frame := List Byte

/-- `FixedWidthUint<W>` (R30): an unsigned integer with `0 <= value < 2^W`. -/
abbrev FixedWidthUint (W : Nat) := BitVec W

/-- `u256` (R30). -/
abbrev U256 := FixedWidthUint 256

/-- `u512` (R30). -/
abbrev U512 := FixedWidthUint 512

/-- `u768` (R30); it exists only inside `hugeuintreciprocal2` (R152). -/
abbrev U768 := FixedWidthUint 768

end Sys2Proof
end

