-- ==== Sys2Proof/Config.lean ====
section
/-!
DEFINITION. The configuration of one unit (R5): every parameter but `RECIP_PRECHECK` is fixed by the spec.
There are no free values: every response is a function of the frame and of `RECIP_PRECHECK` (R21).
-/

namespace Sys2Proof

/-- What the builder of one unit chooses (R5, R16): fixed before reset is released and changed by no step. -/
structure Config where
  /-- `RECIP_PRECHECK` (R154): whether the two reciprocal commands test the divisor's range first. -/
  recipPrecheck : Bool
  deriving DecidableEq, Repr

/-- The default of R5: `RECIP_PRECHECK = false`, the document's reference behaviour (D10). -/
def Config.default : Config := { recipPrecheck := false }

end Sys2Proof
end

