-- ==== Sys2Proof/Syntax.lean ====
section
/-!
DEFINITION. The eleven commands (R64) as syntax: their names, their formats (R61), the decoded command with its
operand values, the document's operation descriptor (R11), and the names of the five faults (R170).
-/

namespace Sys2Proof

/-- The eleven commands of R64, under their mnemonics. -/
inductive Command where
  | div512
  | divup512
  | hugeuintadd
  | hugeuintsub
  | hugeuintmul256
  | hugeuintmul
  | hugeuintdiv256
  | hugeuintdiv
  | hugeuintclz
  | hugeuintreciprocal
  | hugeuintreciprocal2
  deriving DecidableEq, Repr

/-- The four frame shapes of R61. -/
inductive Format where
  | f2x512    -- two 512-bit operands
  | f512x256  -- a 512-bit operand, then a 256-bit one (`F512_256`)
  | f256      -- one 256-bit operand
  | f512      -- one 512-bit operand
  deriving DecidableEq, Repr

/-- A decoded command with its operand values `A` and `B` (R64, R66): one constructor per row of
opcode_table.json. Every value of an operand's width is a legal operand (R66), and the type admits no other. -/
inductive Instr where
  | div512 (A B : U512)
  | divup512 (A B : U512)
  | hugeuintadd (A B : U512)
  | hugeuintsub (A B : U512)
  | hugeuintmul256 (A B : U512)
  | hugeuintmul (A B : U512)
  | hugeuintdiv256 (A : U512) (B : U256)
  | hugeuintdiv (A B : U512)
  | hugeuintclz (A : U256)
  | hugeuintreciprocal (A : U256)
  | hugeuintreciprocal2 (A : U512)
  deriving DecidableEq, Repr

/-- The document's operation descriptor (R11): the operation kind and the operand bytes, as a host writes
them before they become a frame. -/
structure Descriptor where
  command  : Command
  operands : List Frame
  deriving DecidableEq, Repr

/-- The five faults of R170. They are answers of the unit, reported in a response (R176): none of them stops
the machine. -/
inductive Cause where
  | malformedInput         -- R172
  | illegalCommand         -- R173
  | divisionByZero         -- R174
  | narrowingViolation     -- R175
  | preconditionViolation  -- R177
  deriving DecidableEq, Repr

end Sys2Proof
end

