-- ==== Sys2Proof/WellFormed.lean ====
section
/-!
DEFINITION. When an operation descriptor is well formed (R37, R61, R90): it has the number of operands of its
command's format, each a byte string of exactly the declared length. An `Instr` needs no check: its operand
types admit exactly the values of R66.
-/

namespace Sys2Proof

/-- The format of each command (R64). -/
def Command.format : Command → Format
  | .div512 => .f2x512
  | .divup512 => .f2x512
  | .hugeuintadd => .f2x512
  | .hugeuintsub => .f2x512
  | .hugeuintmul256 => .f2x512
  | .hugeuintmul => .f2x512
  | .hugeuintdiv256 => .f512x256
  | .hugeuintdiv => .f2x512
  | .hugeuintclz => .f256
  | .hugeuintreciprocal => .f256
  | .hugeuintreciprocal2 => .f512

/-- The operand lengths of a format in bytes, in positional order (R61). -/
def Format.operandBytes : Format → List Nat
  | .f2x512 => [64, 64]
  | .f512x256 => [64, 32]
  | .f256 => [32]
  | .f512 => [64]

/-- The descriptor has as many operands as its command's format (R61). -/
def Descriptor.countOk (d : Descriptor) : Bool :=
  d.operands.length == d.command.format.operandBytes.length

/-- Each operand has the exact byte length of its declared width (R37): none is padded and none is cut. -/
def Descriptor.lengthsOk (d : Descriptor) : Bool :=
  (d.operands.zip d.command.format.operandBytes).all fun p => p.1.length == p.2

/-- A well-formed descriptor: both checks pass. -/
def Descriptor.wellFormed (d : Descriptor) : Bool := d.countOk && d.lengthsOk

end Sys2Proof
end

