-- ==== Sys2Proof/Decode.lean ====
section
/-!
DEFINITION. Bytes and values (R31 to R33), the opcode map (R64), the decoder, total on every byte string and
rejecting by the name of the fault (R65 to R67), and after it the encoder (R60, R62).
-/

namespace Sys2Proof

/-! ## Bytes and values -/

/-- `be(s)`, the big-endian value of a byte string (00_scope.md section 5.2): byte `i` weighs
`256^(len(s)-1-i)`. -/
def fromBe : Frame → Nat
  | [] => 0
  | b :: s => b.toNat * 256 ^ s.length + fromBe s

/-- The `n`-byte big-endian form of a number (R33): byte `i` is `(v div 256^(n-1-i)) mod 256`. -/
def toBe : Nat → Nat → Frame
  | 0, _ => []
  | n + 1, v => BitVec.ofNat 8 (v / 256 ^ n) :: toBe n v

/-- `from_be_W` (R32), for a string of `W/8` bytes. -/
def fromBeW (W : Nat) (s : Frame) : FixedWidthUint W := BitVec.ofNat W (fromBe s)

/-- `to_be_W` (R33): the canonical external form, exactly `W/8` bytes (R31). -/
def toBeW {W : Nat} (v : FixedWidthUint W) : Frame := toBe (W / 8) v.toNat

/-- `s[i..j)`, the bytes at offsets `i` to `j-1` (00_scope.md section 5.2). -/
def slice (s : Frame) (i j : Nat) : Frame := (s.drop i).take (j - i)

/-! ## The opcode map -/

/-- One row of opcode_table.json: a frame is the command when `cmd[0] & mask = pattern` (R64). -/
structure OpcodeRow where
  command : Command
  pattern : Byte
  mask    : Byte
  deriving DecidableEq, Repr

/-- The opcode map (R64, opcode_table.json). -/
def opcodeTable : List OpcodeRow := [
  ⟨.div512,              0x01#8, 0xFF#8⟩,
  ⟨.divup512,            0x02#8, 0xFF#8⟩,
  ⟨.hugeuintadd,         0x03#8, 0xFF#8⟩,
  ⟨.hugeuintsub,         0x04#8, 0xFF#8⟩,
  ⟨.hugeuintmul256,      0x05#8, 0xFF#8⟩,
  ⟨.hugeuintmul,         0x06#8, 0xFF#8⟩,
  ⟨.hugeuintdiv256,      0x07#8, 0xFF#8⟩,
  ⟨.hugeuintdiv,         0x08#8, 0xFF#8⟩,
  ⟨.hugeuintclz,         0x09#8, 0xFF#8⟩,
  ⟨.hugeuintreciprocal,  0x0A#8, 0xFF#8⟩,
  ⟨.hugeuintreciprocal2, 0x0B#8, 0xFF#8⟩]

/-- The row's command is the one the opcode byte selects. -/
def OpcodeRow.selects (r : OpcodeRow) (op : Byte) : Bool := op &&& r.mask == r.pattern

/-- The command an opcode byte selects; none for a reserved opcode (R67). -/
def Command.ofOpcode (op : Byte) : Option Command :=
  (opcodeTable.find? fun r => r.selects op).map (·.command)

/-- `LEN(OP)` (R64, R61): 129 for opcodes 0x01 to 0x06 and 0x08, 97 for 0x07, 33 for 0x09 and 0x0A, 65 for
0x0B. -/
def Command.length : Command → Nat
  | .div512 => 129
  | .divup512 => 129
  | .hugeuintadd => 129
  | .hugeuintsub => 129
  | .hugeuintmul256 => 129
  | .hugeuintmul => 129
  | .hugeuintdiv256 => 97
  | .hugeuintdiv => 129
  | .hugeuintclz => 33
  | .hugeuintreciprocal => 33
  | .hugeuintreciprocal2 => 65

/-! ## The decoder -/

/-- Operand assembly (R66), from a frame of the right length. -/
def Command.assemble (c : Command) (cmd : Frame) : Instr :=
  match c with
  | .div512 => .div512 (fromBeW 512 (slice cmd 1 65)) (fromBeW 512 (slice cmd 65 129))
  | .divup512 => .divup512 (fromBeW 512 (slice cmd 1 65)) (fromBeW 512 (slice cmd 65 129))
  | .hugeuintadd => .hugeuintadd (fromBeW 512 (slice cmd 1 65)) (fromBeW 512 (slice cmd 65 129))
  | .hugeuintsub => .hugeuintsub (fromBeW 512 (slice cmd 1 65)) (fromBeW 512 (slice cmd 65 129))
  | .hugeuintmul256 => .hugeuintmul256 (fromBeW 512 (slice cmd 1 65)) (fromBeW 512 (slice cmd 65 129))
  | .hugeuintmul => .hugeuintmul (fromBeW 512 (slice cmd 1 65)) (fromBeW 512 (slice cmd 65 129))
  | .hugeuintdiv256 => .hugeuintdiv256 (fromBeW 512 (slice cmd 1 65)) (fromBeW 256 (slice cmd 65 97))
  | .hugeuintdiv => .hugeuintdiv (fromBeW 512 (slice cmd 1 65)) (fromBeW 512 (slice cmd 65 129))
  | .hugeuintclz => .hugeuintclz (fromBeW 256 (slice cmd 1 33))
  | .hugeuintreciprocal => .hugeuintreciprocal (fromBeW 256 (slice cmd 1 33))
  | .hugeuintreciprocal2 => .hugeuintreciprocal2 (fromBeW 512 (slice cmd 1 65))

/-- Decoding in the order of R65, steps 1 to 5: the empty frame, the opcode, the length, then the operands.
Total: every byte string gives an instruction or the name of a decode fault. -/
def decode (cmd : Frame) : Except Cause Instr :=
  match cmd with
  | [] => .error .malformedInput
  | op :: _ =>
    match Command.ofOpcode op with
    | none => .error .illegalCommand
    | some c => if cmd.length = c.length then .ok (c.assemble cmd) else .error .malformedInput

/-! ## The encoder -/

/-- The command of an instruction. -/
def Instr.command : Instr → Command
  | .div512 _ _ => .div512
  | .divup512 _ _ => .divup512
  | .hugeuintadd _ _ => .hugeuintadd
  | .hugeuintsub _ _ => .hugeuintsub
  | .hugeuintmul256 _ _ => .hugeuintmul256
  | .hugeuintmul _ _ => .hugeuintmul
  | .hugeuintdiv256 _ _ => .hugeuintdiv256
  | .hugeuintdiv _ _ => .hugeuintdiv
  | .hugeuintclz _ => .hugeuintclz
  | .hugeuintreciprocal _ => .hugeuintreciprocal
  | .hugeuintreciprocal2 _ => .hugeuintreciprocal2

/-- The opcode of a command (R64). -/
def Command.opcode : Command → Byte
  | .div512 => 0x01#8
  | .divup512 => 0x02#8
  | .hugeuintadd => 0x03#8
  | .hugeuintsub => 0x04#8
  | .hugeuintmul256 => 0x05#8
  | .hugeuintmul => 0x06#8
  | .hugeuintdiv256 => 0x07#8
  | .hugeuintdiv => 0x08#8
  | .hugeuintclz => 0x09#8
  | .hugeuintreciprocal => 0x0A#8
  | .hugeuintreciprocal2 => 0x0B#8

/-- The operands of an instruction in positional order, each in its canonical form (R31, R60). -/
def Instr.operandBytes : Instr → List Frame
  | .div512 A B => [toBeW A, toBeW B]
  | .divup512 A B => [toBeW A, toBeW B]
  | .hugeuintadd A B => [toBeW A, toBeW B]
  | .hugeuintsub A B => [toBeW A, toBeW B]
  | .hugeuintmul256 A B => [toBeW A, toBeW B]
  | .hugeuintmul A B => [toBeW A, toBeW B]
  | .hugeuintdiv256 A B => [toBeW A, toBeW B]
  | .hugeuintdiv A B => [toBeW A, toBeW B]
  | .hugeuintclz A => [toBeW A]
  | .hugeuintreciprocal A => [toBeW A]
  | .hugeuintreciprocal2 A => [toBeW A]

/-- The operation descriptor of an instruction (R11). -/
def Instr.descriptor (i : Instr) : Descriptor := { command := i.command, operands := i.operandBytes }

/-- The frame of a descriptor (R60, R62): the opcode, then the operands with no separator, no length field and no
padding. -/
def Descriptor.frame (d : Descriptor) : Frame := d.command.opcode :: d.operands.flatten

/-- The command frame of an instruction (R60, R62). -/
def encode (i : Instr) : Frame := i.descriptor.frame

/-! ## Words of the opcode table -/

/-- The `n` bytes of a number, least significant first: byte `k` is `(w div 256^k) mod 256`. -/
def littleBytes : Nat → Nat → Frame
  | 0, _ => []
  | n + 1, w => BitVec.ofNat 8 w :: littleBytes n (w / 256)

/-- The command frame whose bits are `w`, bit 0 the least significant bit of byte 0 and a later byte's bits
counting on: `nbits` in whole bytes, and after them bytes 0x00 up to the length its opcode asks for (R63). -/
def tableFrame (nbits w : Nat) : Frame :=
  let given := littleBytes ((nbits + 7) / 8) w
  let need := match given with
    | [] => 0
    | op :: _ => ((Command.ofOpcode op).map Command.length).getD 1
  given ++ List.replicate (need - given.length) 0x00#8

/-- The instruction the decoder reads from a word of the opcode table; none where it refuses. -/
def decodeTableWord (nbits w : Nat) : Option Instr :=
  match decode (tableFrame nbits w) with
  | .ok i => some i
  | .error _ => none

end Sys2Proof
end

