-- ==== Sys2Proof/Machine/State.lean ====
section
/-!
DEFINITION. The state of one unit (R10, with the transfer in progress of R80 and R200), the moves of its two
agents (R9, R19), the reasons a step can stop, and the state after reset (R20).
-/

namespace Sys2Proof.Machine

/-- The three phases of R10, with the command latch (R11) in `busy` and the response latch (R12) in `resp`.
`idle` carries no data at all. -/
inductive Phase where
  | idle
  | busy (cmd : Frame)
  | resp (rsp : Frame)
  deriving DecidableEq, Repr

/-- The input pins at one rising edge of `clk` (R80). -/
structure Pins where
  rst      : Bool
  cmdValid : Bool
  cmdData  : Byte
  cmdLast  : Bool
  rspReady : Bool
  deriving DecidableEq, Repr

/-- A move an agent wants to make: the four steps of R19, and one rising edge of the clock with the pins the
host drives (R80). -/
inductive Move where
  | accept (f : Frame)  -- the host offers the frame `f` (R19)
  | execute             -- the unit executes the command it holds (R19)
  | deliver             -- the host takes the response (R19)
  | reset               -- the host asserts reset (R19, R200)
  | edge (p : Pins)     -- one clock edge (R80)
  deriving DecidableEq, Repr

/-- Why the machine stops. The unit's own faults (R170) are no stops: they are responses. -/
inductive Fault where
  /-- Raised by `step` when no step of R19 is enabled: the unit is `IDLE` and no frame is offered (R184), or it is
  in `RESP` and the host takes no response (R212; "stuck", U15). Safe: the unit would stay as it is for ever. -/
  | noEnabledStep
  deriving DecidableEq, Repr

/-- Why a step has no meaning. -/
inductive Refusal where
  /-- For an arm of `exec` whose instruction has no meaning yet. No arm of this model is of that kind. Safe. -/
  | notModelled (mnemonic : String)
  deriving DecidableEq, Repr

end Sys2Proof.Machine

namespace Sys2Proof.Machine

/-- The state of one unit and of the world it can see. -/
structure State where
  /-- The constant of the unit (R5, R16): no step changes it. -/
  cfg      : Config
  /-- The phase with its latch: the architectural state of R10. -/
  phase    : Phase
  /-- The bytes of a frame moved over the command channel and not yet accepted (R80, R200). -/
  rx       : Frame
  /-- How many bytes of the response have moved over the response channel (R80, R200). -/
  taken    : Nat
  /-- The model's own: the moves the agents want to make, in order. It stands for the host's choices and for
  time, which the spec leaves open (10_state.md section 4, R210). -/
  schedule : List Move
  /-- The model's own: the responses the host has received, oldest first (R19, R212). -/
  received : List Frame
  deriving DecidableEq, Repr

/-- A unit of configuration `c` right after reset (R20, R200), with no move scheduled and no response
received. -/
def State.resetWith (c : Config) : State :=
  { cfg := c, phase := .idle, rx := [], taken := 0, schedule := [], received := [] }

/-- The machine right after reset (R20), with `RECIP_PRECHECK` at its default (R5). -/
def State.reset : State := State.resetWith Config.default

end Sys2Proof.Machine
end

