-- ==== Sys2Proof/Machine/Operands.lean ====
section
/-!
DEFINITION. Operand values: limbs (R30), widening (R34), narrowing (R35), and the arithmetic of one width that the
commands share (R103, R120).
-/

namespace Sys2Proof.Machine

/-- `limb_i(v) = (v div 2^(256*i)) mod 2^256` (R30), `i = 0` the least significant. -/
def limb {W : Nat} (i : Nat) (v : FixedWidthUint W) : U256 := BitVec.ofNat 256 (v.toNat / 2 ^ (256 * i))

/-- `lo(v)`, the low limb of a 512-bit value. -/
def lo (v : U512) : U256 := limb 0 v

/-- `hi(v)`, the high limb of a 512-bit value. -/
def hi (v : U512) : U256 := limb 1 v

/-- The 512-bit value of the limb tuple `(high, low)` (R30). -/
def ofLimbs (high low : U256) : U512 := BitVec.ofNat 512 (high.toNat * 2 ^ 256 + low.toNat)

/-- `zext_W(v)` (R34): the same number at width `W`, for a value of width `V <= W`. -/
def zext (W : Nat) {V : Nat} (v : FixedWidthUint V) : FixedWidthUint W := BitVec.ofNat W v.toNat

/-- `narrow256(v)` (R35): the value itself when it is below `2^256`, and otherwise the fault, never the low limb. -/
def narrow256 {W : Nat} (v : FixedWidthUint W) : Except Cause U256 :=
  if 2 ^ 256 ≤ v.toNat then .error .narrowingViolation else .ok (BitVec.ofNat 256 v.toNat)

/-- `add_W(x, y) = (x + y) mod 2^W` (R103). -/
def addW {W : Nat} (x y : FixedWidthUint W) : FixedWidthUint W := BitVec.ofNat W (x.toNat + y.toNat)

/-- `sub_W(x, y) = (x - y) mod 2^W` (R103), in the two branches of R101. -/
def subW {W : Nat} (x y : FixedWidthUint W) : FixedWidthUint W :=
  if y.toNat ≤ x.toNat then BitVec.ofNat W (x.toNat - y.toNat)
  else BitVec.ofNat W (2 ^ W + x.toNat - y.toNat)

/-- `MAX_W = 2^W - 1`, the maximal value of width `W` (00_scope.md section 5.3). -/
def maxW (W : Nat) : FixedWidthUint W := BitVec.ofNat W (2 ^ W - 1)

/-- `divfloor_W(a, b)` (R120): the floor quotient, and the fault for a zero divisor. -/
def divfloor {W : Nat} (a b : FixedWidthUint W) : Except Cause (FixedWidthUint W) :=
  if b.toNat = 0 then .error .divisionByZero else .ok (BitVec.ofNat W (a.toNat / b.toNat))

end Sys2Proof.Machine
end

