-- ==== Sys2Proof/Machine/Flags.lean ====
section
/-!
DEFINITION. The one flag, TRUNC (R15), and the FLAGS byte that carries it (R72).
-/

namespace Sys2Proof.Machine

/-- The FLAGS byte (R72): bit 0 is TRUNC, bits 7 to 1 are 0. -/
def flagsByte (trunc : Bool) : Byte := if trunc then 0x01#8 else 0x00#8

/-- TRUNC of `hugeuintadd` (R100): the carry out of bit 511. -/
def addTruncates (A B : U512) : Bool := decide (2 ^ 512 ≤ A.toNat + B.toNat)

/-- TRUNC of `hugeuintsub` (R101): the borrow out of bit 511. -/
def subTruncates (A B : U512) : Bool := decide (A.toNat < B.toNat)

/-- TRUNC of `hugeuintmul` (R111): the high 512 bits of the product are not all zero. -/
def mulTruncates (A B : U512) : Bool := decide (2 ^ 512 ≤ A.toNat * B.toNat)

end Sys2Proof.Machine
end

