-- ==== Sys2Proof/Machine/Ops.lean ====
section
/-!
DEFINITION. The operations the meanings and the step share: building a response (R70 to R75), answering a command
with it, raising a fault (R176) and returning from one (R180), the steps of R19, and one clock edge of the two
channels (R80).
-/

namespace Sys2Proof.Machine

/-- What a meaning answers with: the next state, as every command is answered (R211). -/
abbrev Result := Host.Outcome State Fault Refusal

/-! ## Responses -/

/-- The cause code of a fault, which is the STATUS byte of its response (R71, R171). -/
def causeCode : Cause → Byte
  | .malformedInput => 0x01#8
  | .illegalCommand => 0x02#8
  | .divisionByZero => 0x03#8
  | .narrowingViolation => 0x04#8
  | .preconditionViolation => 0x05#8

/-- `enc_pair(v)` (R73): the low word first, each word big-endian. -/
def encPair (v : U512) : Frame := toBeW (lo v) ++ toBeW (hi v)

/-- `enc_word(v)` (R74): one big-endian word. -/
def encWord (v : U256) : Frame := toBeW v

/-- FLAGS and PAYLOAD of a successful response: the arguments of `respond` (00_scope.md section 5.4). -/
structure Reply where
  flags   : Byte
  payload : Frame
  deriving DecidableEq, Repr

/-- A pair reply (format `RP` of R75) with its TRUNC flag. -/
def pairReply (trunc : Bool) (v : U512) : Reply := { flags := flagsByte trunc, payload := encPair v }

/-- A word reply (format `RW` of R75): FLAGS is 0x00. -/
def wordReply (v : U256) : Reply := { flags := flagsByte false, payload := encWord v }

/-- The response frame of a success (R70, R75): STATUS 0x00, FLAGS, PAYLOAD. -/
def okFrame (r : Reply) : Frame := 0x00#8 :: r.flags :: r.payload

/-- The fault response (R176): the cause code, FLAGS 0x00, no payload. -/
def faultFrame (c : Cause) : Frame := [causeCode c, 0x00#8]

/-- The phase becomes `RESP(rsp)`; none of the response's bytes has been taken yet (R12, R19). -/
def State.latchResponse (rsp : Frame) (s : State) : State :=
  { s with phase := .resp rsp, taken := 0 }

/-- `respond(flags, payload)` (00_scope.md section 5.4). -/
def State.respond (r : Reply) (s : State) : Result := .next (s.latchResponse (okFrame r))

/-- `raise <Fault>` (R176): taking a fault is latching its response, and nothing else is saved. -/
def State.raise (c : Cause) (s : State) : Result := .next (s.latchResponse (faultFrame c))

/-- The end of a command: `respond` or `raise` (R65 step 6). -/
def State.answer (r : Except Cause Reply) (s : State) : Result :=
  match r with
  | .ok reply => s.respond reply
  | .error c => s.raise c

/-! ## The steps of the host (R19) -/

/-- `accept(f)`: the phase becomes `BUSY(f)`. -/
def State.accept (f : Frame) (s : State) : State := { s with phase := .busy f, rx := [] }

/-- `deliver`: the host receives the response and the phase becomes `IDLE`. It is also the return from a
fault (R180). Outside `RESP` there is nothing to take. -/
def State.deliver (s : State) : State :=
  match s.phase with
  | .resp rsp => { s with phase := .idle, taken := 0, received := s.received ++ [rsp] }
  | .idle => s
  | .busy _ => s

/-- `reset` (R200): the phase becomes `IDLE`; a held command, a held response and the bytes of a transfer in
progress are discarded. -/
def State.resetUnit (s : State) : State := { s with phase := .idle, rx := [], taken := 0 }

/-! ## The two channels (R80) -/

/-- `cmd_ready`: high in phase `IDLE`, also while a frame is being collected. R80 makes it high only there; DESIGN CHOICE
(log 18): the unit never stalls there, so that it is high at every edge. -/
def State.cmdReady (s : State) : Bool :=
  match s.phase with
  | .idle => true
  | .busy _ => false
  | .resp _ => false

/-- `rsp_valid`: high in phase `RESP`. R80 makes it high only there; DESIGN CHOICE (log 18): the unit never stalls there,
so that it is high at every edge. -/
def State.rspValid (s : State) : Bool :=
  match s.phase with
  | .idle => false
  | .busy _ => false
  | .resp _ => true

/-- `rsp_data`: the next byte of the response, in offset order. DESIGN CHOICE (log 17): 0x00 while `rsp_valid` is
low, a level R80 leaves open. -/
def State.rspData (s : State) : Byte :=
  match s.phase with
  | .idle => 0x00#8
  | .busy _ => 0x00#8
  | .resp rsp => rsp.getD s.taken 0x00#8

/-- `rsp_last`: the byte presented is the last of the response. DESIGN CHOICE (log 17): low while `rsp_valid` is low,
a level R80 leaves open. -/
def State.rspLast (s : State) : Bool :=
  match s.phase with
  | .idle => false
  | .busy _ => false
  | .resp rsp => decide (rsp.length ≤ s.taken + 1)

/-- One rising edge of `clk` (R80, R200). While `rst` is high the unit is held in `IDLE` and no byte moves. A
command byte moves when `cmd_valid` and `cmd_ready` are high, and the one with `cmd_last` is the `accept`; a
response byte moves when `rsp_valid` and `rsp_ready` are high, and the one with `rsp_last` is the `deliver`. -/
def State.clockEdge (p : Pins) (s : State) : State :=
  if p.rst then s.resetUnit
  else if p.cmdValid && s.cmdReady then
    if p.cmdLast then s.accept (s.rx ++ [p.cmdData]) else { s with rx := s.rx ++ [p.cmdData] }
  else if p.rspReady && s.rspValid then
    if s.rspLast then s.deliver else { s with taken := s.taken + 1 }
  else s

/-! ## Which move comes next -/

/-- When a move is enabled (R19). A whole frame waits while the unit is not `IDLE`, and while another frame is
being collected byte by byte; a clock edge comes whatever the phase. -/
def State.enabled (s : State) : Move → Bool
  | .accept _ => s.cmdReady && s.rx.isEmpty
  | .execute => match s.phase with
    | .idle => false
    | .busy _ => true
    | .resp _ => false
  | .deliver => s.rspValid
  | .reset => true
  | .edge _ => true

/-- The first enabled move of a list, and the list without it: the moves before it wait. -/
def firstEnabled (enabled : Move → Bool) : List Move → Option (Move × List Move)
  | [] => none
  | m :: ms =>
    if enabled m then some (m, ms)
    else (firstEnabled enabled ms).map fun r => (r.1, m :: r.2)

/-- The move that comes next and the state that is left to make it: the first enabled move of the schedule; when
there is none, a busy unit executes of its own accord (R211). -/
def State.chosen (s : State) : Option (Move × State) :=
  match firstEnabled s.enabled s.schedule with
  | some (m, rest) => some (m, { s with schedule := rest })
  | none => if s.enabled .execute then some (.execute, s) else none

/-- The schedule with the unit's `execute` in front; a unit with nothing scheduled executes without it. -/
def executeFirst : List Move → List Move
  | [] => []
  | m :: ms => .execute :: m :: ms

end Sys2Proof.Machine
end

