-- ==== Sys2Proof/Machine/AddSub.lean ====
section
/-!
DEFINITION. Addition and subtraction (spec/40_addsub.md): `hugeuintadd`, `hugeuintsub`.
-/

namespace Sys2Proof.Machine

/-- R100: the sum modulo `2^512`, TRUNC the carry out of bit 511. It never faults and never saturates (R105). -/
def replyHugeuintadd (A B : U512) : Except Cause Reply := .ok (pairReply (addTruncates A B) (addW A B))

/-- `hugeuintadd` (R100). -/
def execHugeuintadd (A B : U512) (s : State) : Result := s.answer (replyHugeuintadd A B)

/-- R101: the difference modulo `2^512`, TRUNC the borrow. `A < B` is no fault. -/
def replyHugeuintsub (A B : U512) : Except Cause Reply := .ok (pairReply (subTruncates A B) (subW A B))

/-- `hugeuintsub` (R101). -/
def execHugeuintsub (A B : U512) (s : State) : Result := s.answer (replyHugeuintsub A B)

end Sys2Proof.Machine
end

