-- ==== Sys2Proof/Machine/Clz.lean ====
section
/-!
DEFINITION. The leading-zero count (spec/43_clz.md): `hugeuintclz`.
-/

namespace Sys2Proof.Machine

/-- R140: 256 for zero, else `255 - k` with `k` the position of the highest set bit. -/
def clzCount (A : U256) : Nat := if A.toNat = 0 then 256 else 255 - A.toNat.log2

/-- R140, R74: the count as a 256-bit word. It never faults. -/
def replyHugeuintclz (A : U256) : Except Cause Reply := .ok (wordReply (BitVec.ofNat 256 (clzCount A)))

/-- `hugeuintclz` (R140). -/
def execHugeuintclz (A : U256) (s : State) : Result := s.answer (replyHugeuintclz A)

end Sys2Proof.Machine
end

