-- ==== Sys2Proof/Machine/Div.lean ====
section
/-!
DEFINITION. Division (spec/42_div.md): `div512`, `divup512`, `hugeuintdiv256`, `hugeuintdiv`.
-/

namespace Sys2Proof.Machine

/-- R121: the floor quotient as a pair. -/
def replyDiv512 (A B : U512) : Except Cause Reply := do
  let Q ← divfloor A B
  return pairReply false Q

/-- `div512` (R121). -/
def execDiv512 (A B : U512) (s : State) : Result := s.answer (replyDiv512 A B)

/-- R122, R125: the floor quotient, plus 1 when the remainder is not zero. -/
def replyDivup512 (A B : U512) : Except Cause Reply := do
  let Q ← divfloor A B
  return pairReply false (if A.toNat % B.toNat = 0 then Q else addW Q 1)

/-- `divup512` (R122). -/
def execDivup512 (A B : U512) (s : State) : Result := s.answer (replyDivup512 A B)

/-- R123: the 256-bit divisor is widened, the quotient is narrowed. The zero test comes first (R178). -/
def replyHugeuintdiv256 (A : U512) (B : U256) : Except Cause Reply := do
  let Q ← divfloor A (zext 512 B)
  let q ← narrow256 Q
  return wordReply q

/-- `hugeuintdiv256` (R123). -/
def execHugeuintdiv256 (A : U512) (B : U256) (s : State) : Result := s.answer (replyHugeuintdiv256 A B)

/-- R124: the quotient is narrowed. The zero test comes first (R178). -/
def replyHugeuintdiv (A B : U512) : Except Cause Reply := do
  let Q ← divfloor A B
  let q ← narrow256 Q
  return wordReply q

/-- `hugeuintdiv` (R124). -/
def execHugeuintdiv (A B : U512) (s : State) : Result := s.answer (replyHugeuintdiv A B)

end Sys2Proof.Machine
end

