-- ==== Sys2Proof/Machine/Mul.lean ====
section
/-!
DEFINITION. Multiplication (spec/41_mul.md): `hugeuintmul256`, `hugeuintmul`.
-/

namespace Sys2Proof.Machine

/-- `x * y mod 2^512` of two operands of any width. -/
def mul512 {V : Nat} (x y : FixedWidthUint V) : U512 := BitVec.ofNat 512 (x.toNat * y.toNat)

/-- R110: both operands are narrowed, and the product of the two 256-bit values is exact. -/
def replyHugeuintmul256 (A B : U512) : Except Cause Reply := do
  let a ← narrow256 A
  let b ← narrow256 B
  return pairReply false (mul512 a b)

/-- `hugeuintmul256` (R110). -/
def execHugeuintmul256 (A B : U512) (s : State) : Result := s.answer (replyHugeuintmul256 A B)

/-- R111: the low 512 bits of the product, TRUNC when the rest is not zero. A product that does not fit is no
fault. -/
def replyHugeuintmul (A B : U512) : Except Cause Reply := .ok (pairReply (mulTruncates A B) (mul512 A B))

/-- `hugeuintmul` (R111). -/
def execHugeuintmul (A B : U512) (s : State) : Result := s.answer (replyHugeuintmul A B)

end Sys2Proof.Machine
end

