-- ==== Sys2Proof/Machine/Reciprocal.lean ====
section
/-!
DEFINITION. The reciprocals (spec/44_reciprocal.md): `hugeuintreciprocal`, `hugeuintreciprocal2`. One exact
division, no refinement (R157).
-/

namespace Sys2Proof.Machine

/-- `recip_V(d)` (R150) for a divisor of width `V`, at the next wider width `W = V + 256`: the maximal value of
that width divided by the widened divisor, less `2^256`, narrowed. -/
def recip {V : Nat} (d : FixedWidthUint V) : Except Cause U256 := do
  let Q ← divfloor (maxW (V + 256)) (zext (V + 256) d)
  narrow256 (subW Q (BitVec.ofNat (V + 256) (2 ^ 256)))

/-- R151, R152: the zero test, then the range test where the unit has it (R154), then the computation. -/
def replyRecip {V : Nat} (precheck : Bool) (d : FixedWidthUint V) : Except Cause Reply :=
  if d.toNat = 0 then .error .divisionByZero
  else if precheck && decide (d.toNat < 2 ^ (V - 1)) then .error .preconditionViolation
  else do
    let r ← recip d
    return wordReply r

/-- `hugeuintreciprocal` (R151). -/
def execHugeuintreciprocal (A : U256) (s : State) : Result := s.answer (replyRecip s.cfg.recipPrecheck A)

/-- `hugeuintreciprocal2` (R152). -/
def execHugeuintreciprocal2 (A : U512) (s : State) : Result := s.answer (replyRecip s.cfg.recipPrecheck A)

end Sys2Proof.Machine
end

