-- ==== Sys2Proof/Machine/Dispatch.lean ====
section
/-!
DEFINITION. The dispatch: one arm per command (R64, last column).
-/

namespace Sys2Proof.Machine

def exec (i : Instr) (s : State) : Host.Outcome State Fault Refusal :=
  match i with
  | .div512 A B => Sys2Proof.Machine.execDiv512 A B s
  | .divup512 A B => Sys2Proof.Machine.execDivup512 A B s
  | .hugeuintadd A B => Sys2Proof.Machine.execHugeuintadd A B s
  | .hugeuintsub A B => Sys2Proof.Machine.execHugeuintsub A B s
  | .hugeuintmul256 A B => Sys2Proof.Machine.execHugeuintmul256 A B s
  | .hugeuintmul A B => Sys2Proof.Machine.execHugeuintmul A B s
  | .hugeuintdiv256 A B => Sys2Proof.Machine.execHugeuintdiv256 A B s
  | .hugeuintdiv A B => Sys2Proof.Machine.execHugeuintdiv A B s
  | .hugeuintclz A => Sys2Proof.Machine.execHugeuintclz A s
  | .hugeuintreciprocal A => Sys2Proof.Machine.execHugeuintreciprocal A s
  | .hugeuintreciprocal2 A => Sys2Proof.Machine.execHugeuintreciprocal2 A s

end Sys2Proof.Machine
end

