-- ==== Sys2Proof/Machine/Step.lean ====
section
/-!
DEFINITION. One step of the machine: the move that comes next (R19), made.
-/

namespace Sys2Proof.Machine

/-- `exec(cmd)` of R21 and R65, answered into the state: decode, then raise the decode fault or run the
command's rule. -/
def State.runFrame (cmd : Frame) (s : State) : Host.Outcome State Fault Refusal :=
  match decode cmd with
  | .error c => s.raise c
  | .ok i => exec i s

/-- `execute` (R19): the unit answers the frame it holds. It is chosen in phase `BUSY` only. -/
def State.execute (s : State) : Host.Outcome State Fault Refusal :=
  match s.phase with
  | .busy cmd => s.runFrame cmd
  | .idle => .fault .noEnabledStep
  | .resp _ => .fault .noEnabledStep

/-- One step: the next move of the two agents, made (R19, R80). -/
def step (s : State) : Host.Outcome State Fault Refusal :=
  match s.chosen with
  | none => .fault .noEnabledStep
  | some (.accept f, s') => .next (s'.accept f)
  | some (.execute, s') => s'.execute
  | some (.deliver, s') => .next s'.deliver
  | some (.reset, s') => .next s'.resetUnit
  | some (.edge p, s') => .next (s'.clockEdge p)

/-- The state in which the unit holds the frame of a word of the opcode table and its next step executes it: the
frame is in the command latch, as after `accept`, no transfer is in progress, and no move of the host comes
first. -/
def State.withFetchWord (s : State) (nbits w : Nat) : State :=
  { s with phase := .busy (tableFrame nbits w), rx := [], taken := 0, schedule := executeFirst s.schedule }

end Sys2Proof.Machine
end

