-- ==== Sys2Proof/Machine/Datapath.lean ====
section
/-!
DEFINITION. The reference procedures the spec gives for the operations: the carry and borrow chains (R102, and R103 at
every width), the schoolbook product (R112), restoring division (R129) and the byte scan (R141). The meanings do not use them: the
mathematical result is normative (R120, D21), and that each procedure gives it is stated as an obligation.
-/

namespace Sys2Proof.Machine

/-- The carry chain of R102: the sum and the carry out of the high limb. -/
def carryChain (A B : U512) : U512 × Nat :=
  let s0 := (lo A).toNat + (lo B).toNat
  let c0 := s0 / 2 ^ 256
  let s1 := (hi A).toNat + (hi B).toNat + c0
  (ofLimbs (BitVec.ofNat 256 s1) (BitVec.ofNat 256 s0), s1 / 2 ^ 256)

/-- The borrow of an integer difference: 1 when it is negative (R102). -/
def borrow (d : Int) : Nat := if d < 0 then 1 else 0

/-- The borrow chain of R102: the difference and the borrow out of the high limb. -/
def borrowChain (A B : U512) : U512 × Nat :=
  let d0 : Int := ((lo A).toNat : Int) - (lo B).toNat
  let b0 := borrow d0
  let d1 : Int := ((hi A).toNat : Int) - (hi B).toNat - b0
  (ofLimbs (BitVec.ofInt 256 d1) (BitVec.ofInt 256 d0), borrow d1)

/-- The `W/256` limbs of a value, the least significant first (R30). -/
def limbsOf {W : Nat} (v : FixedWidthUint W) : List U256 := (List.range (W / 256)).map fun i => limb i v

/-- The number of a list of limbs, the least significant first (R30). -/
def limbSum : List U256 → Nat
  | [] => 0
  | l :: ls => l.toNat + 2 ^ 256 * limbSum ls

/-- The carry chain of R102 over any number of limbs (R103), from the carry `c` into the first: the limbs of the sum
and the carry out of the last. -/
def addLimbs (c : Nat) : List U256 → List U256 → List U256 × Nat
  | a :: as, b :: bs =>
    let s := a.toNat + b.toNat + c
    let r := addLimbs (s / 2 ^ 256) as bs
    (BitVec.ofNat 256 s :: r.1, r.2)
  | [], _ => ([], c)
  | _ :: _, [] => ([], c)

/-- The borrow chain of R102 over any number of limbs (R103), from the borrow `c` out of the first: the limbs of the
difference and the borrow out of the last. -/
def subLimbs (c : Nat) : List U256 → List U256 → List U256 × Nat
  | a :: as, b :: bs =>
    let d : Int := (a.toNat : Int) - b.toNat - c
    let r := subLimbs (borrow d) as bs
    (BitVec.ofInt 256 d :: r.1, r.2)
  | [], _ => ([], c)
  | _ :: _, [] => ([], c)

/-- The carry chain extended to `W/256` limbs (R103): the sum and the carry out of the highest limb. -/
def carryChainW {W : Nat} (x y : FixedWidthUint W) : FixedWidthUint W × Nat :=
  let r := addLimbs 0 (limbsOf x) (limbsOf y)
  (BitVec.ofNat W (limbSum r.1), r.2)

/-- The borrow chain extended to `W/256` limbs (R103): the difference and the borrow out of the highest limb. -/
def borrowChainW {W : Nat} (x y : FixedWidthUint W) : FixedWidthUint W × Nat :=
  let r := subLimbs 0 (limbsOf x) (limbsOf y)
  (BitVec.ofNat W (limbSum r.1), r.2)

/-- The exact 256×256→512 product of two limbs, the one primitive of R112. -/
def limbProduct (x y : U256) : U512 := BitVec.ofNat 512 (x.toNat * y.toNat)

/-- The schoolbook product of R112: the low 512 bits, and the part above them (`over`). -/
def schoolbook (A B : U512) : U512 × Nat :=
  let p00 := limbProduct (lo A) (lo B)
  let p01 := limbProduct (lo A) (hi B)
  let p10 := limbProduct (hi A) (lo B)
  let p11 := limbProduct (hi A) (hi B)
  let mid := (hi p00).toNat + (lo p01).toNat + (lo p10).toNat
  let above := mid / 2 ^ 256 + (hi p01).toNat + (hi p10).toNat + p11.toNat
  (ofLimbs (BitVec.ofNat 256 mid) (lo p00), above)

/-- The loop of R129 over the bits `i-1` down to 0 of the numerator, from the quotient `q` and the partial
remainder `r`. -/
def restoringLoop (N D : Nat) : Nat → Nat → Nat → Nat × Nat
  | 0, q, r => (q, r)
  | i + 1, q, r =>
    let r' := 2 * r + N / 2 ^ i % 2
    if D ≤ r' then restoringLoop N D i (q + 2 ^ i) (r' - D) else restoringLoop N D i q r'

/-- Restoring division at width `W` (R129): the quotient and the remainder. -/
def restoringDiv (W N D : Nat) : Nat × Nat := restoringLoop N D W 0 0

/-- `clz8(b)` (R141), the table of the leading zero bits of a non-zero byte. -/
def clz8 (b : Byte) : Nat :=
  if 0x80 ≤ b.toNat then 0
  else if 0x40 ≤ b.toNat then 1
  else if 0x20 ≤ b.toNat then 2
  else if 0x10 ≤ b.toNat then 3
  else if 0x08 ≤ b.toNat then 4
  else if 0x04 ≤ b.toNat then 5
  else if 0x02 ≤ b.toNat then 6
  else 7

/-- The scan of R141 over the bytes from offset `j` on: the count at the first non-zero byte, and the number of
bits when all are zero. -/
def byteScanFrom (j : Nat) : Frame → Nat
  | [] => 8 * j
  | b :: s => if b = 0x00#8 then byteScanFrom (j + 1) s else 8 * j + clz8 b

/-- The byte scan of R141 over the canonical form of a value. -/
def byteScan (A : U256) : Nat := byteScanFrom 0 (toBeW A)

end Sys2Proof.Machine
end

