-- ==== Sys2Proof/Machine/Text.lean ====
section
/-!
DEFINITION. The text of commands (R90) and of responses (R91). No part of the hardware (U18): a notation for
frames, kept so that a listing of the spec can be read into a frame.
-/

namespace Sys2Proof.Machine

/-- The value of a hexadecimal digit, upper or lower case (R90). -/
def hexDigit (c : Char) : Option Nat :=
  let n := c.toNat
  if 48 ≤ n ∧ n ≤ 57 then some (n - 48)
  else if 97 ≤ n ∧ n ≤ 102 then some (n - 87)
  else if 65 ≤ n ∧ n ≤ 70 then some (n - 55)
  else none

/-- The bytes of a string of hexadecimal digits, two digits a byte, most significant first (R90). -/
def hexBytes : List Char → Option Frame
  | [] => some []
  | [_] => none
  | h :: l :: rest => do
    let x ← hexDigit h
    let y ← hexDigit l
    let s ← hexBytes rest
    return BitVec.ofNat 8 (16 * x + y) :: s

/-- A parameter without its optional `0x` (R90). DEDUCED (log 15): `0X` is no prefix. -/
def digitsOf : List Char → List Char
  | '0' :: 'x' :: rest => rest
  | cs => cs

/-- The bytes of one parameter (R90). -/
def paramBytes (cs : List Char) : Option Frame := hexBytes (digitsOf cs)

/-- The words of a line, separated by single spaces (R90); `w` holds the word being read, last character first. -/
def wordsFrom (w : List Char) : List Char → List (List Char)
  | [] => [w.reverse]
  | ' ' :: cs => w.reverse :: wordsFrom [] cs
  | c :: cs => wordsFrom (c :: w) cs

/-- The mnemonic of a command (R64). -/
def mnemonic : Command → List Char
  | .div512 => ['d', 'i', 'v', '5', '1', '2']
  | .divup512 => ['d', 'i', 'v', 'u', 'p', '5', '1', '2']
  | .hugeuintadd => ['h', 'u', 'g', 'e', 'u', 'i', 'n', 't', 'a', 'd', 'd']
  | .hugeuintsub => ['h', 'u', 'g', 'e', 'u', 'i', 'n', 't', 's', 'u', 'b']
  | .hugeuintmul256 => ['h', 'u', 'g', 'e', 'u', 'i', 'n', 't', 'm', 'u', 'l', '2', '5', '6']
  | .hugeuintmul => ['h', 'u', 'g', 'e', 'u', 'i', 'n', 't', 'm', 'u', 'l']
  | .hugeuintdiv256 => ['h', 'u', 'g', 'e', 'u', 'i', 'n', 't', 'd', 'i', 'v', '2', '5', '6']
  | .hugeuintdiv => ['h', 'u', 'g', 'e', 'u', 'i', 'n', 't', 'd', 'i', 'v']
  | .hugeuintclz => ['h', 'u', 'g', 'e', 'u', 'i', 'n', 't', 'c', 'l', 'z']
  | .hugeuintreciprocal => ['h', 'u', 'g', 'e', 'u', 'i', 'n', 't', 'r', 'e', 'c', 'i', 'p', 'r', 'o', 'c', 'a', 'l']
  | .hugeuintreciprocal2 =>
    ['h', 'u', 'g', 'e', 'u', 'i', 'n', 't', 'r', 'e', 'c', 'i', 'p', 'r', 'o', 'c', 'a', 'l', '2']

/-- The command a mnemonic names. DEDUCED (log 15): mnemonics are read in lower case only. -/
def commandNamed (w : List Char) : Option Command :=
  (opcodeTable.find? fun r => mnemonic r.command == w).map (·.command)

/-- Assembling a line of command text (R90): the frame `[OP] ‖ bytes(hex_1) ‖ bytes(hex_2)`; none for a mnemonic
that names no command, and for a parameter too many, too few or of another number of digits. -/
def assembleText (line : List Char) : Option Frame :=
  match wordsFrom [] line with
  | [] => none
  | w :: params => do
    let c ← commandNamed w
    let operands ← params.mapM paramBytes
    let d : Descriptor := { command := c, operands := operands }
    if d.wellFormed then some d.frame else none

/-- What a response frame says, as R91 writes it: `OK lo=<lo> hi=<hi>` with TRUNC or without, `OK <value>`, or
`FAULT <name>`. -/
inductive ResponseText where
  | okPair (lo hi : Nat) (trunc : Bool)
  | okWord (v : Nat)
  | fault (c : Cause)
  deriving DecidableEq, Repr

/-- The fault a STATUS byte names (R71). -/
def causeOf (status : Byte) : Option Cause :=
  [Cause.malformedInput, .illegalCommand, .divisionByZero, .narrowingViolation, .preconditionViolation].find?
    fun c => causeCode c == status

/-- Reading a response frame by its format (R75): the words of a pair in the order they are sent, low first. -/
def readResponse : Frame → Option ResponseText
  | [] => none
  | [_] => none
  | status :: flags :: payload =>
    if status = 0x00#8 then
      if payload.length = 64 then
        some (.okPair (fromBe (payload.take 32)) (fromBe (payload.drop 32)) (flags == 0x01#8))
      else if payload.length = 32 then some (.okWord (fromBe payload))
      else none
    else if payload.length = 0 then (causeOf status).map .fault
    else none

/-- The name of a fault (R71). -/
def causeName : Cause → String
  | .malformedInput => "MalformedInput"
  | .illegalCommand => "IllegalCommand"
  | .divisionByZero => "DivisionByZero"
  | .narrowingViolation => "NarrowingViolation"
  | .preconditionViolation => "PreconditionViolation"

/-- A number in hexadecimal (R91). DESIGN CHOICE (log 15): `0x` in front, lower-case digits and no leading zeros; R91
leaves the printed form of a number open. -/
def hexText (n : Nat) : String := "0x" ++ String.ofList (Nat.toDigits 16 n)

/-- The text of R91, with its numbers printed in hexadecimal (log 15). -/
def ResponseText.text : ResponseText → String
  | .okPair lo hi trunc => "OK lo=" ++ hexText lo ++ " hi=" ++ hexText hi ++ (if trunc then " TRUNC" else "")
  | .okWord v => "OK " ++ hexText v
  | .fault c => "FAULT " ++ causeName c

end Sys2Proof.Machine
end

