-- ==== Sys2Proof/Safety.lean ====
section
/-!
DEFINITION. The terms the statements use: response frames written from their numbers, which frames are legal
responses (R71, R72, R75), the invariant of every reachable state, and the byte sequences of the two channels.
-/

namespace Sys2Proof.Machine

/-! ## Response frames written from numbers -/

/-- The frame of an `RP` response for the number `v < 2^512` (R73, R75), low word first. -/
def pairResponse (trunc : Bool) (v : Nat) : Frame :=
  0x00#8 :: (if trunc then 0x01#8 else 0x00#8) :: (toBe 32 (v % 2 ^ 256) ++ toBe 32 (v / 2 ^ 256))

/-- The frame of an `RW` response for the number `v < 2^256` (R74, R75). -/
def wordResponse (v : Nat) : Frame := 0x00#8 :: 0x00#8 :: toBe 32 v

/-- The frame of an `RF` response with STATUS `code` (R75, R176). -/
def faultResponse (code : Nat) : Frame := [BitVec.ofNat 8 code, 0x00#8]

/-- The state in which the unit has answered with `rsp` and everything else is as in `s`. -/
def State.answeredWith (s : State) (rsp : Frame) : State :=
  { s with phase := .resp rsp, taken := 0 }

/-! ## Legal responses and the invariant -/

/-- The response frames a unit of configuration `c` may give: the three formats of R75, FLAGS 0x00 or 0x01 and
0x01 only in a pair (R72), STATUS at most 5 (R71), and STATUS 0x05 only with `RECIP_PRECHECK` (R177). -/
def legalResponse (c : Config) : Frame → Bool
  | [] => false
  | [_] => false
  | status :: flags :: payload =>
    if status = 0x00#8 then
      (payload.length == 64 && (flags == 0x00#8 || flags == 0x01#8)) || (payload.length == 32 && flags == 0x00#8)
    else payload.isEmpty && flags == 0x00#8 &&
      (status == 0x01#8 || status == 0x02#8 || status == 0x03#8 || status == 0x04#8 ||
        (status == 0x05#8 && c.recipPrecheck))

/-- What the phase says about the transfers in progress: bytes of a command are collected in `IDLE` only, bytes of
a response are taken in `RESP` only and never all of them, and the response latch holds a legal response. -/
def phaseOk (s : State) : Bool :=
  match s.phase with
  | .idle => s.taken == 0
  | .busy _ => s.taken == 0 && s.rx.isEmpty
  | .resp rsp => s.rx.isEmpty && legalResponse s.cfg rsp && decide (s.taken < rsp.length)

/-- The invariant: the phase and the transfers agree, and every response the host holds is legal. -/
def State.inv (s : State) : Bool := phaseOk s && s.received.all (legalResponse s.cfg)

/-! ## The true result -/

/-- The true mathematical result of a command, before any truncation or narrowing (R100, R101, R110, R111, R121 to
R124, R140, R151, R152); for a division it means something for a non-zero divisor only. The leading zeros of a
256-bit value are 256 less its bit length (R140). -/
def Instr.trueResult : Instr → Int
  | .div512 A B => (A.toNat / B.toNat : Nat)
  | .divup512 A B => (A.toNat / B.toNat + (if A.toNat % B.toNat = 0 then 0 else 1) : Nat)
  | .hugeuintadd A B => (A.toNat : Int) + B.toNat
  | .hugeuintsub A B => (A.toNat : Int) - B.toNat
  | .hugeuintmul256 A B => (A.toNat : Int) * B.toNat
  | .hugeuintmul A B => (A.toNat : Int) * B.toNat
  | .hugeuintdiv256 A B => (A.toNat / B.toNat : Nat)
  | .hugeuintdiv A B => (A.toNat / B.toNat : Nat)
  | .hugeuintclz A => 256 - (A.toNat.size : Int)
  | .hugeuintreciprocal A => ((2 ^ 512 - 1) / A.toNat : Nat) - 2 ^ 256
  | .hugeuintreciprocal2 A => ((2 ^ 768 - 1) / A.toNat : Nat) - 2 ^ 256

/-! ## The channels as sequences of bytes -/

/-- The bytes of a frame as they stand on `cmd_data`, each with its `cmd_last` (R80). -/
def markLast : Frame → List (Byte × Bool)
  | [] => []
  | [b] => [(b, true)]
  | b :: c :: s => (b, false) :: markLast (c :: s)

/-- The state after a sequence of clock edges. -/
def State.afterEdges (s : State) (ps : List Pins) : State := ps.foldl (fun t p => t.clockEdge p) s

/-- The response bytes that move over the response channel during a sequence of clock edges (R80). -/
def State.bytesTaken (s : State) : List Pins → Frame
  | [] => []
  | p :: ps =>
    if !p.rst && p.rspReady && s.rspValid then s.rspData :: (s.clockEdge p).bytesTaken ps
    else (s.clockEdge p).bytesTaken ps

/-! ## Command text -/

/-- `c` is the hexadecimal digit of the number `n`, in either letter case (R90). -/
def isHexDigitOf (c : Char) (n : Nat) : Bool :=
  ['0', '1', '2', '3', '4', '5', '6', '7', '8', '9', 'a', 'b', 'c', 'd', 'e', 'f'][n]? == some c ||
  ['0', '1', '2', '3', '4', '5', '6', '7', '8', '9', 'A', 'B', 'C', 'D', 'E', 'F'][n]? == some c

/-- The digits spell the bytes: two digits for each byte, the high one first, in offset order (R90). -/
def spells : List Char → Frame → Bool
  | [], [] => true
  | h :: l :: cs, b :: s => isHexDigitOf h (b.toNat / 16) && isHexDigitOf l (b.toNat % 16) && spells cs s
  | _, _ => false

/-- A parameter of command text spells the bytes, with `0x` in front or without (R90). -/
def spellsParam (p : List Char) (s : Frame) : Bool :=
  spells p s || (p.take 2 == ['0', 'x'] && spells (p.drop 2) s)

/-- The line of a mnemonic and its parameters, separated by single spaces (R90). -/
def commandLine (c : Command) (params : List (List Char)) : List Char :=
  mnemonic c ++ (params.map fun p => ' ' :: p).flatten

/-! ## Moves -/

/-- A move that waits in phase `BUSY`: an offered frame or the host's readiness to take a response (R19). -/
def Move.waitsInBusy : Move → Bool
  | .accept _ => true
  | .deliver => true
  | .execute => false
  | .reset => false
  | .edge _ => false

end Sys2Proof.Machine
end

