-- ==== Sys2Proof/Certificates/Slice0/Obligations.lean ====
section
/-!
DEFINITION. The statements for the provers. Each docstring names the rule of the spec it formalises. `answeredWith`
says the frame of every command: the phase becomes `RESP` of the response, none of its bytes is taken yet, and the
parameter, the collected bytes, the schedule and the received responses are as before; there is nothing else in
State.
-/

open Sys2Proof Sys2Proof.Machine

/-! ## Encoding -/

/-- One written frame of each family decodes to the command it stands for (R62, R64, R66): S1, S5, F5, F9 and F11
of 95_test_vectors.md, their bytes written from the field positions of R62. -/
def Obligations.WrittenFramesDecodeToTheirCommands : Prop :=
  decode (0x03#8 :: (List.replicate 63 0x00#8 ++ [0x01#8] ++ List.replicate 63 0x00#8 ++ [0x01#8]))
      = .ok (.hugeuintadd 1 1) ∧
  decode (0x05#8 :: (List.replicate 32 0x00#8 ++ List.replicate 32 0xFF#8 ++ List.replicate 32 0x00#8 ++
      List.replicate 32 0xFF#8)) = .ok (.hugeuintmul256 (BitVec.ofNat 512 (2 ^ 256 - 1)) (BitVec.ofNat 512 (2 ^ 256 - 1))) ∧
  decode (0x07#8 :: (List.replicate 31 0x00#8 ++ [0x01#8] ++ List.replicate 32 0x00#8 ++ List.replicate 31 0x00#8 ++
      [0x02#8])) = .ok (.hugeuintdiv256 (BitVec.ofNat 512 (2 ^ 256)) 2) ∧
  decode (0x09#8 :: (List.replicate 6 0x00#8 ++ [0x01#8] ++ List.replicate 23 0x00#8 ++ [0x30#8, 0x39#8]))
      = .ok (.hugeuintclz (BitVec.ofNat 256 (2 ^ 200 + 12345))) ∧
  decode (0x0B#8 :: ([0x80#8] ++ List.replicate 30 0x00#8 ++ [0x01#8] ++ List.replicate 32 0x00#8))
      = .ok (.hugeuintreciprocal2 (BitVec.ofNat 512 (2 ^ 511 + 2 ^ 256)))

/-- Decoding the encoding of any command, with every value of its operands, gives the command back (R60, R62, R64,
R66). Every `Instr` is well formed: its operand types admit exactly the values of R66. -/
def Obligations.DecodeOfEncodeIsTheCommand : Prop :=
  ∀ i : Instr, decode (encode i) = .ok i

/-- A frame that decodes is the encoding of what it decodes to (R60, R62): no byte of the frame is dropped, and no
two frames are one command. -/
def Obligations.EncodeOfDecodeIsTheFrame : Prop :=
  ∀ (cmd : Frame) (i : Instr), decode cmd = .ok i → encode i = cmd

/-- Operand assembly (R66): for every opcode, any operand bytes of the right length are a legal encoding, and the
operands are the big-endian values of the slices the rule names. -/
def Obligations.OperandsAreTheBigEndianValuesOfTheirSlices : Prop :=
  ∀ a b c : Frame, a.length = 64 → b.length = 64 → c.length = 32 →
    decode (0x01#8 :: (a ++ b)) = .ok (.div512 (fromBeW 512 a) (fromBeW 512 b)) ∧
    decode (0x02#8 :: (a ++ b)) = .ok (.divup512 (fromBeW 512 a) (fromBeW 512 b)) ∧
    decode (0x03#8 :: (a ++ b)) = .ok (.hugeuintadd (fromBeW 512 a) (fromBeW 512 b)) ∧
    decode (0x04#8 :: (a ++ b)) = .ok (.hugeuintsub (fromBeW 512 a) (fromBeW 512 b)) ∧
    decode (0x05#8 :: (a ++ b)) = .ok (.hugeuintmul256 (fromBeW 512 a) (fromBeW 512 b)) ∧
    decode (0x06#8 :: (a ++ b)) = .ok (.hugeuintmul (fromBeW 512 a) (fromBeW 512 b)) ∧
    decode (0x07#8 :: (a ++ c)) = .ok (.hugeuintdiv256 (fromBeW 512 a) (fromBeW 256 c)) ∧
    decode (0x08#8 :: (a ++ b)) = .ok (.hugeuintdiv (fromBeW 512 a) (fromBeW 512 b)) ∧
    decode (0x09#8 :: c) = .ok (.hugeuintclz (fromBeW 256 c)) ∧
    decode (0x0A#8 :: c) = .ok (.hugeuintreciprocal (fromBeW 256 c)) ∧
    decode (0x0B#8 :: a) = .ok (.hugeuintreciprocal2 (fromBeW 512 a))

/-! ## Bytes, values and limbs -/

/-- R33: byte `i` of the canonical form, and that the two conversions are inverse bijections. -/
def Obligations.CanonicalBytesAndValuesAreInverse : Prop :=
  ∀ W : Nat, W = 256 ∨ W = 512 ∨ W = 768 →
    (∀ v : FixedWidthUint W,
      (toBeW v).length = W / 8 ∧
      (∀ i, i < W / 8 → ((toBeW v).getD i 0x00#8).toNat = v.toNat / 256 ^ (W / 8 - 1 - i) % 256) ∧
      fromBeW W (toBeW v) = v) ∧
    (∀ s : Frame, s.length = W / 8 → toBeW (fromBeW W s) = s)

/-- R32: the value of a string of the exact length is its big-endian number, and each 32 bytes of it are a limb,
the most significant first. -/
def Obligations.OperandBytesAreLimbsMostSignificantFirst : Prop :=
  (∀ s : Frame, s.length = 32 →
    (fromBeW 256 s).toNat = fromBe s ∧ limb 0 (fromBeW 256 s) = fromBeW 256 (slice s 0 32)) ∧
  (∀ s : Frame, s.length = 64 →
    (fromBeW 512 s).toNat = fromBe s ∧
    limb 1 (fromBeW 512 s) = fromBeW 256 (slice s 0 32) ∧
    limb 0 (fromBeW 512 s) = fromBeW 256 (slice s 32 64)) ∧
  (∀ s : Frame, s.length = 96 →
    (fromBeW 768 s).toNat = fromBe s ∧
    limb 2 (fromBeW 768 s) = fromBeW 256 (slice s 0 32) ∧
    limb 1 (fromBeW 768 s) = fromBeW 256 (slice s 32 64) ∧
    limb 0 (fromBeW 768 s) = fromBeW 256 (slice s 64 96))

/-- R30: a value is the weighted sum of its limbs at each of the three widths, and the limb tuple and the number
determine each other. -/
def Obligations.ValueIsTheSumOfItsLimbs : Prop :=
  (∀ v : U256, limb 0 v = v) ∧
  (∀ v : U512, v.toNat = (limb 1 v).toNat * 2 ^ 256 + (limb 0 v).toNat) ∧
  (∀ v : U768, v.toNat = (limb 2 v).toNat * 2 ^ 512 + (limb 1 v).toNat * 2 ^ 256 + (limb 0 v).toNat) ∧
  (∀ h l : U256, hi (ofLimbs h l) = h ∧ lo (ofLimbs h l) = l) ∧
  (∀ v : U512, ofLimbs (hi v) (lo v) = v)

/-- R34: widening keeps the number, and the added limbs are zero, for the three widenings of the unit. -/
def Obligations.WideningKeepsTheNumber : Prop :=
  (∀ v : U256, (zext 512 v).toNat = v.toNat ∧ limb 0 (zext 512 v) = v ∧ limb 1 (zext 512 v) = 0) ∧
  (∀ v : U256, (zext 768 v).toNat = v.toNat ∧ limb 0 (zext 768 v) = v ∧ limb 1 (zext 768 v) = 0 ∧
    limb 2 (zext 768 v) = 0) ∧
  (∀ v : U512, (zext 768 v).toNat = v.toNat ∧ limb 0 (zext 768 v) = lo v ∧ limb 1 (zext 768 v) = hi v ∧
    limb 2 (zext 768 v) = 0)

/-- R35: narrowing faults exactly when some limb above the low one is non-zero, and otherwise keeps the number. -/
def Obligations.NarrowingFaultsOrKeepsTheNumber : Prop :=
  (∀ v : U512,
    (limb 1 v ≠ 0 ↔ 2 ^ 256 ≤ v.toNat) ∧
    (2 ^ 256 ≤ v.toNat → narrow256 v = .error .narrowingViolation) ∧
    (v.toNat < 2 ^ 256 → narrow256 v = .ok (limb 0 v) ∧ (limb 0 v).toNat = v.toNat)) ∧
  (∀ v : U768,
    ((limb 1 v ≠ 0 ∨ limb 2 v ≠ 0) ↔ 2 ^ 256 ≤ v.toNat) ∧
    (2 ^ 256 ≤ v.toNat → narrow256 v = .error .narrowingViolation) ∧
    (v.toNat < 2 ^ 256 → narrow256 v = .ok (limb 0 v) ∧ (limb 0 v).toNat = v.toNat))

/-- R73: the pair payload is the low word and then the high word, each big-endian: the canonical form with its
halves exchanged, and the canonical form itself only when the two limbs are equal. -/
def Obligations.PairPayloadIsLowWordFirst : Prop :=
  ∀ v : U512,
    encPair v = toBe 32 (v.toNat % 2 ^ 256) ++ toBe 32 (v.toNat / 2 ^ 256) ∧
    encPair v = (toBeW v).drop 32 ++ (toBeW v).take 32 ∧
    (encPair v = toBeW v ↔ hi v = lo v)

/-! ## The commands -/

/-- `hugeuintadd` (R100): its encoding, the sum modulo `2^512` and TRUNC, for all operands, in every state. -/
def Obligations.HugeuintaddAnswersTheSumModulo512 : Prop :=
  ∀ (A B : U512) (s : State),
    decode (0x03#8 :: (toBe 64 A.toNat ++ toBe 64 B.toNat)) = .ok (.hugeuintadd A B) ∧
    exec (.hugeuintadd A B) s = .next (s.answeredWith
      (pairResponse (decide (2 ^ 512 ≤ A.toNat + B.toNat)) ((A.toNat + B.toNat) % 2 ^ 512)))

/-- `hugeuintsub` (R101): its encoding, and the difference without borrow or with it. -/
def Obligations.HugeuintsubAnswersTheDifferenceModulo512 : Prop :=
  ∀ (A B : U512) (s : State),
    decode (0x04#8 :: (toBe 64 A.toNat ++ toBe 64 B.toNat)) = .ok (.hugeuintsub A B) ∧
    (B.toNat ≤ A.toNat →
      exec (.hugeuintsub A B) s = .next (s.answeredWith (pairResponse false (A.toNat - B.toNat)))) ∧
    (A.toNat < B.toNat →
      exec (.hugeuintsub A B) s = .next (s.answeredWith (pairResponse true (2 ^ 512 + A.toNat - B.toNat))))

/-- `hugeuintmul256` (R110): its encoding, the exact product of two 256-bit values, and the fault when an operand
has a non-zero high limb. -/
def Obligations.Hugeuintmul256AnswersTheExactProduct : Prop :=
  ∀ (A B : U512) (s : State),
    decode (0x05#8 :: (toBe 64 A.toNat ++ toBe 64 B.toNat)) = .ok (.hugeuintmul256 A B) ∧
    (A.toNat < 2 ^ 256 ∧ B.toNat < 2 ^ 256 →
      A.toNat * B.toNat < 2 ^ 512 ∧
      exec (.hugeuintmul256 A B) s = .next (s.answeredWith (pairResponse false (A.toNat * B.toNat)))) ∧
    (2 ^ 256 ≤ A.toNat ∨ 2 ^ 256 ≤ B.toNat →
      exec (.hugeuintmul256 A B) s = .next (s.answeredWith (faultResponse 0x04)))

/-- `hugeuintmul` (R111): its encoding, the low 512 bits of the product and TRUNC. -/
def Obligations.HugeuintmulAnswersTheProductModulo512 : Prop :=
  ∀ (A B : U512) (s : State),
    decode (0x06#8 :: (toBe 64 A.toNat ++ toBe 64 B.toNat)) = .ok (.hugeuintmul A B) ∧
    exec (.hugeuintmul A B) s = .next (s.answeredWith
      (pairResponse (decide (2 ^ 512 ≤ A.toNat * B.toNat)) (A.toNat * B.toNat % 2 ^ 512)))

/-- `div512` (R121): its encoding, the floor quotient, and the fault for a zero divisor. -/
def Obligations.Div512AnswersTheFloorQuotient : Prop :=
  ∀ (A B : U512) (s : State),
    decode (0x01#8 :: (toBe 64 A.toNat ++ toBe 64 B.toNat)) = .ok (.div512 A B) ∧
    (B.toNat ≠ 0 → exec (.div512 A B) s = .next (s.answeredWith (pairResponse false (A.toNat / B.toNat)))) ∧
    (B.toNat = 0 → exec (.div512 A B) s = .next (s.answeredWith (faultResponse 0x03)))

/-- `divup512` (R122): its encoding, the ceiling, which never reaches `2^512`, and the fault for a zero divisor. -/
def Obligations.Divup512AnswersTheCeiling : Prop :=
  ∀ (A B : U512) (s : State),
    decode (0x02#8 :: (toBe 64 A.toNat ++ toBe 64 B.toNat)) = .ok (.divup512 A B) ∧
    (B.toNat ≠ 0 → A.toNat % B.toNat = 0 →
      exec (.divup512 A B) s = .next (s.answeredWith (pairResponse false (A.toNat / B.toNat)))) ∧
    (B.toNat ≠ 0 → A.toNat % B.toNat ≠ 0 →
      A.toNat / B.toNat + 1 < 2 ^ 512 ∧
      exec (.divup512 A B) s = .next (s.answeredWith (pairResponse false (A.toNat / B.toNat + 1)))) ∧
    (B.toNat = 0 → exec (.divup512 A B) s = .next (s.answeredWith (faultResponse 0x03)))

/-- `hugeuintdiv256` (R123): its encoding, the narrowed quotient, and its two faults; the quotient does not fit
exactly when `hi(A) >= B`. -/
def Obligations.Hugeuintdiv256AnswersTheNarrowedQuotient : Prop :=
  ∀ (A : U512) (B : U256) (s : State),
    decode (0x07#8 :: (toBe 64 A.toNat ++ toBe 32 B.toNat)) = .ok (.hugeuintdiv256 A B) ∧
    (B.toNat = 0 → exec (.hugeuintdiv256 A B) s = .next (s.answeredWith (faultResponse 0x03))) ∧
    (B.toNat ≠ 0 → (2 ^ 256 ≤ A.toNat / B.toNat ↔ B.toNat ≤ (hi A).toNat)) ∧
    (B.toNat ≠ 0 → 2 ^ 256 ≤ A.toNat / B.toNat →
      exec (.hugeuintdiv256 A B) s = .next (s.answeredWith (faultResponse 0x04))) ∧
    (B.toNat ≠ 0 → A.toNat / B.toNat < 2 ^ 256 →
      exec (.hugeuintdiv256 A B) s = .next (s.answeredWith (wordResponse (A.toNat / B.toNat))))

/-- `hugeuintdiv` (R124): its encoding, the narrowed quotient, and its two faults; the quotient does not fit
exactly when `hi(B) = 0` and `hi(A) >= lo(B)`. -/
def Obligations.HugeuintdivAnswersTheNarrowedQuotient : Prop :=
  ∀ (A B : U512) (s : State),
    decode (0x08#8 :: (toBe 64 A.toNat ++ toBe 64 B.toNat)) = .ok (.hugeuintdiv A B) ∧
    (B.toNat = 0 → exec (.hugeuintdiv A B) s = .next (s.answeredWith (faultResponse 0x03))) ∧
    (B.toNat ≠ 0 → (2 ^ 256 ≤ A.toNat / B.toNat ↔ hi B = 0 ∧ (lo B).toNat ≤ (hi A).toNat)) ∧
    (B.toNat ≠ 0 → 2 ^ 256 ≤ A.toNat / B.toNat →
      exec (.hugeuintdiv A B) s = .next (s.answeredWith (faultResponse 0x04))) ∧
    (B.toNat ≠ 0 → A.toNat / B.toNat < 2 ^ 256 →
      exec (.hugeuintdiv A B) s = .next (s.answeredWith (wordResponse (A.toNat / B.toNat))))

/-- `hugeuintclz` (R140): its encoding, 256 for zero, and `255 - k` for a value whose highest set bit is `k`. -/
def Obligations.HugeuintclzAnswersTheLeadingZeroCount : Prop :=
  ∀ (A : U256) (s : State),
    decode (0x09#8 :: toBe 32 A.toNat) = .ok (.hugeuintclz A) ∧
    (A.toNat = 0 → exec (.hugeuintclz A) s = .next (s.answeredWith (wordResponse 256))) ∧
    (∀ k, 2 ^ k ≤ A.toNat → A.toNat < 2 ^ (k + 1) →
      k ≤ 255 ∧ exec (.hugeuintclz A) s = .next (s.answeredWith (wordResponse (255 - k))))

/-- `hugeuintreciprocal` (R151): its encoding, its faults under both settings of the parameter, and the result for
every divisor of the documented range. -/
def Obligations.HugeuintreciprocalAnswersTheSeed : Prop :=
  ∀ (A : U256) (s : State),
    decode (0x0A#8 :: toBe 32 A.toNat) = .ok (.hugeuintreciprocal A) ∧
    (A.toNat = 0 → exec (.hugeuintreciprocal A) s = .next (s.answeredWith (faultResponse 0x03))) ∧
    (0 < A.toNat → A.toNat < 2 ^ 255 → s.cfg.recipPrecheck = true →
      exec (.hugeuintreciprocal A) s = .next (s.answeredWith (faultResponse 0x05))) ∧
    (0 < A.toNat → A.toNat < 2 ^ 255 → s.cfg.recipPrecheck = false →
      exec (.hugeuintreciprocal A) s = .next (s.answeredWith (faultResponse 0x04))) ∧
    (2 ^ 255 ≤ A.toNat →
      1 ≤ (2 ^ 512 - 1) / A.toNat - 2 ^ 256 ∧ (2 ^ 512 - 1) / A.toNat - 2 ^ 256 < 2 ^ 256 ∧
      exec (.hugeuintreciprocal A) s = .next (s.answeredWith (wordResponse ((2 ^ 512 - 1) / A.toNat - 2 ^ 256))))

/-- `hugeuintreciprocal2` (R152): its encoding, its faults under both settings of the parameter, and the result for
every divisor of the documented range, which is the range `hi(d) >= 2^255`. -/
def Obligations.Hugeuintreciprocal2AnswersTheSeed : Prop :=
  ∀ (A : U512) (s : State),
    decode (0x0B#8 :: toBe 64 A.toNat) = .ok (.hugeuintreciprocal2 A) ∧
    (2 ^ 255 ≤ (hi A).toNat ↔ 2 ^ 511 ≤ A.toNat) ∧
    (A.toNat = 0 → exec (.hugeuintreciprocal2 A) s = .next (s.answeredWith (faultResponse 0x03))) ∧
    (0 < A.toNat → A.toNat < 2 ^ 511 → s.cfg.recipPrecheck = true →
      exec (.hugeuintreciprocal2 A) s = .next (s.answeredWith (faultResponse 0x05))) ∧
    (0 < A.toNat → A.toNat < 2 ^ 511 → s.cfg.recipPrecheck = false →
      exec (.hugeuintreciprocal2 A) s = .next (s.answeredWith (faultResponse 0x04))) ∧
    (2 ^ 511 ≤ A.toNat →
      2 ^ 256 ≤ (2 ^ 768 - 1) / A.toNat ∧ (2 ^ 768 - 1) / A.toNat - 2 ^ 256 < 2 ^ 256 ∧
      exec (.hugeuintreciprocal2 A) s = .next (s.answeredWith (wordResponse ((2 ^ 768 - 1) / A.toNat - 2 ^ 256))))

/-- R15: the FLAGS byte of a response is 0x00 or 0x01, and it is 0x01 exactly for an addition, a subtraction or a
wide multiplication whose true result lies outside `[0, 2^512)`. -/
def Obligations.TruncIsSetExactlyWhenTheResultDoesNotFit : Prop :=
  ∀ (i : Instr) (s : State), ∃ rsp : Frame,
    exec i s = .next (s.answeredWith rsp) ∧
    (rsp.getD 1 0xFF#8 = 0x00#8 ∨ rsp.getD 1 0xFF#8 = 0x01#8) ∧
    (rsp.getD 1 0xFF#8 = 0x01#8 ↔
      (∃ A B, i = .hugeuintadd A B ∧ 2 ^ 512 ≤ A.toNat + B.toNat) ∨
      (∃ A B, i = .hugeuintsub A B ∧ A.toNat < B.toNat) ∨
      (∃ A B, i = .hugeuintmul A B ∧ 2 ^ 512 ≤ A.toNat * B.toNat))

/-- R179, the part after decoding: the STATUS of every command's answer, for all operands and both settings of the
parameter (the wrong lengths are `WrongLengthIsAnsweredMalformedInput`). -/
def Obligations.StatusFollowsTheFaultMatrix : Prop :=
  ∀ (i : Instr) (s : State), ∃ rsp : Frame,
    exec i s = .next (s.answeredWith rsp) ∧
    rsp.getD 0 0xFF#8 = BitVec.ofNat 8 (match i with
      | .div512 _ B => if B.toNat = 0 then 3 else 0
      | .divup512 _ B => if B.toNat = 0 then 3 else 0
      | .hugeuintadd _ _ => 0
      | .hugeuintsub _ _ => 0
      | .hugeuintmul256 A B => if 2 ^ 256 ≤ A.toNat ∨ 2 ^ 256 ≤ B.toNat then 4 else 0
      | .hugeuintmul _ _ => 0
      | .hugeuintdiv256 A B => if B.toNat = 0 then 3 else if 2 ^ 256 ≤ A.toNat / B.toNat then 4 else 0
      | .hugeuintdiv A B => if B.toNat = 0 then 3 else if 2 ^ 256 ≤ A.toNat / B.toNat then 4 else 0
      | .hugeuintclz _ => 0
      | .hugeuintreciprocal A =>
        if A.toNat = 0 then 3 else if A.toNat < 2 ^ 255 then (if s.cfg.recipPrecheck then 5 else 4) else 0
      | .hugeuintreciprocal2 A =>
        if A.toNat = 0 then 3 else if A.toNat < 2 ^ 511 then (if s.cfg.recipPrecheck then 5 else 4) else 0)

/-- The length of every command's answer (R75): 2 for a fault, 66 for the success of opcodes 0x01 to 0x06, 34 for
that of 0x07 to 0x0B; and the answer is a legal response. -/
def Obligations.ResponseLengthFollowsTheFormat : Prop :=
  ∀ (i : Instr) (s : State), ∃ rsp : Frame,
    exec i s = .next (s.answeredWith rsp) ∧ legalResponse s.cfg rsp = true ∧
    rsp.length = (if rsp.getD 0 0xFF#8 = 0x00#8
      then (if i.command.opcode.toNat ≤ 6 then 66 else 34) else 2)

/-- R186, R2: no answer is silently wrong. Every command is answered with a fault, or with its true result, or,
where TRUNC says so, with the true result modulo `2^512` when that lies outside `[0, 2^512)`. -/
def Obligations.NoAnswerIsSilentlyWrong : Prop :=
  ∀ (i : Instr) (s : State), ∃ rsp : Frame,
    exec i s = .next (s.answeredWith rsp) ∧
    ((∃ c : Cause, rsp = faultFrame c) ∨
      (∃ v : Nat, v < 2 ^ 512 ∧ rsp = pairResponse false v ∧ (v : Int) = Instr.trueResult i) ∨
      (∃ v : Nat, v < 2 ^ 512 ∧ rsp = pairResponse true v ∧ (v : Int) = Instr.trueResult i % 2 ^ 512 ∧
        (Instr.trueResult i < 0 ∨ 2 ^ 512 ≤ Instr.trueResult i)) ∨
      (∃ v : Nat, v < 2 ^ 256 ∧ rsp = wordResponse v ∧ (v : Int) = Instr.trueResult i))

/-! ## Laws of the commands -/

/-- R104: the two inverse laws and the two others, on the responses: the TRUNC of the subtraction that undoes an
addition is the TRUNC of the addition. -/
def Obligations.SubtractionUndoesAddition : Prop :=
  ∀ (A B : U512) (s : State),
    (∃ (S : U512) (t : Bool),
      exec (.hugeuintadd A B) s = .next (s.answeredWith (pairResponse t S.toNat)) ∧
      exec (.hugeuintsub S B) s = .next (s.answeredWith (pairResponse t A.toNat)) ∧
      (t = true ↔ 2 ^ 512 ≤ A.toNat + B.toNat)) ∧
    (∃ (D : U512) (t u : Bool),
      exec (.hugeuintsub A B) s = .next (s.answeredWith (pairResponse t D.toNat)) ∧
      exec (.hugeuintadd D B) s = .next (s.answeredWith (pairResponse u A.toNat)) ∧
      (D = 0 ↔ A = B)) ∧
    exec (.hugeuintadd A B) s = exec (.hugeuintadd B A) s

/-- R113: both multiplications are commutative, in the whole response frame. -/
def Obligations.MultiplicationIsCommutative : Prop :=
  ∀ (A B : U512) (s : State),
    exec (.hugeuintmul256 A B) s = exec (.hugeuintmul256 B A) s ∧
    exec (.hugeuintmul A B) s = exec (.hugeuintmul B A) s

/-- R126 and R114, with the unit's own commands (program P1): quotient, its product with the divisor, and the
remainder, all three without truncation. -/
def Obligations.DivisionIdentityHoldsOnTheCommands : Prop :=
  ∀ (A B : U512) (s : State), B.toNat ≠ 0 → ∃ Q P R : U512,
    exec (.div512 A B) s = .next (s.answeredWith (pairResponse false Q.toNat)) ∧
    exec (.hugeuintmul Q B) s = .next (s.answeredWith (pairResponse false P.toNat)) ∧
    exec (.hugeuintsub A P) s = .next (s.answeredWith (pairResponse false R.toNat)) ∧
    P.toNat = Q.toNat * B.toNat ∧ P.toNat ≤ A.toNat ∧
    R.toNat = A.toNat % B.toNat ∧ P.toNat + R.toNat = A.toNat

/-- R127: the ceiling is the floor, or the floor plus 1, and it is the least `c` with `c*b >= a`. -/
def Obligations.CeilingIsTheLeastMultiplierReachingTheNumerator : Prop :=
  ∀ (A B : U512) (s : State), B.toNat ≠ 0 → ∃ q c : Nat, q < 2 ^ 512 ∧ c < 2 ^ 512 ∧
    exec (.div512 A B) s = .next (s.answeredWith (pairResponse false q)) ∧
    exec (.divup512 A B) s = .next (s.answeredWith (pairResponse false c)) ∧
    (A.toNat % B.toNat = 0 → c = q) ∧ (A.toNat % B.toNat ≠ 0 → c = q + 1) ∧
    (∀ x : Nat, A.toNat ≤ x * B.toNat ↔ c ≤ x)

/-- R155, R156: the bound on the result of `hugeuintreciprocal`, and the same bound for `hugeuintreciprocal2`. -/
def Obligations.ReciprocalBounds : Prop :=
  (∀ d : U256, 2 ^ 255 ≤ d.toNat → ∃ r : Nat, r < 2 ^ 256 ∧
    (∀ s : State, exec (.hugeuintreciprocal d) s = .next (s.answeredWith (wordResponse r))) ∧
    (r + 2 ^ 256) * d.toNat ≤ 2 ^ 512 - 1 ∧ 2 ^ 512 - 1 < (r + 2 ^ 256 + 1) * d.toNat) ∧
  (∀ d : U512, 2 ^ 511 ≤ d.toNat → ∃ r : Nat, r < 2 ^ 256 ∧
    (∀ s : State, exec (.hugeuintreciprocal2 d) s = .next (s.answeredWith (wordResponse r))) ∧
    (r + 2 ^ 256) * d.toNat ≤ 2 ^ 768 - 1 ∧ 2 ^ 768 - 1 < (r + 2 ^ 256 + 1) * d.toNat)

/-- R150: for both divisor widths the subtraction never wraps, and the result is the quotient less `2^256`
narrowed, or the fault of the division or of the narrowing. -/
def Obligations.RecipIsOneDivisionLess2To256 : Prop :=
  (∀ d : U256,
    (d.toNat = 0 → recip d = .error .divisionByZero) ∧
    (d.toNat ≠ 0 → 2 ^ 256 ≤ (2 ^ 512 - 1) / d.toNat) ∧
    (d.toNat ≠ 0 → 2 ^ 256 ≤ (2 ^ 512 - 1) / d.toNat - 2 ^ 256 → recip d = .error .narrowingViolation) ∧
    (d.toNat ≠ 0 → (2 ^ 512 - 1) / d.toNat - 2 ^ 256 < 2 ^ 256 →
      recip d = .ok (BitVec.ofNat 256 ((2 ^ 512 - 1) / d.toNat - 2 ^ 256)))) ∧
  (∀ d : U512,
    (d.toNat = 0 → recip d = .error .divisionByZero) ∧
    (d.toNat ≠ 0 → 2 ^ 256 ≤ (2 ^ 768 - 1) / d.toNat) ∧
    (d.toNat ≠ 0 → 2 ^ 256 ≤ (2 ^ 768 - 1) / d.toNat - 2 ^ 256 → recip d = .error .narrowingViolation) ∧
    (d.toNat ≠ 0 → (2 ^ 768 - 1) / d.toNat - 2 ^ 256 < 2 ^ 256 →
      recip d = .ok (BitVec.ofNat 256 ((2 ^ 768 - 1) / d.toNat - 2 ^ 256))))

/-- R158: the number the result of a reciprocal stands for, `r + 2^256`, is the largest integer whose product with
the divisor does not exceed the maximal value of the wider width. -/
def Obligations.ReciprocalStandsForTheLargestMultiplier : Prop :=
  (∀ (d : U256) (s : State), 2 ^ 255 ≤ d.toNat → ∃ r : Nat, r < 2 ^ 256 ∧
    exec (.hugeuintreciprocal d) s = .next (s.answeredWith (wordResponse r)) ∧
    ∀ m : Nat, m * d.toNat ≤ 2 ^ 512 - 1 ↔ m ≤ r + 2 ^ 256) ∧
  (∀ (d : U512) (s : State), 2 ^ 511 ≤ d.toNat → ∃ r : Nat, r < 2 ^ 256 ∧
    exec (.hugeuintreciprocal2 d) s = .next (s.answeredWith (wordResponse r)) ∧
    ∀ m : Nat, m * d.toNat ≤ 2 ^ 768 - 1 ↔ m ≤ r + 2 ^ 256)

/-- R142: a leading-zero count of 0 is exactly the precondition of each reciprocal: the unit answers the count 0
exactly when it answers the reciprocal with a success. -/
def Obligations.ZeroLeadingZerosIsTheReciprocalPrecondition : Prop :=
  (∀ (d : U256) (s : State),
    exec (.hugeuintclz d) s = .next (s.answeredWith (wordResponse 0)) ↔
    ∃ r, r < 2 ^ 256 ∧ exec (.hugeuintreciprocal d) s = .next (s.answeredWith (wordResponse r))) ∧
  (∀ (d : U512) (s : State),
    exec (.hugeuintclz (hi d)) s = .next (s.answeredWith (wordResponse 0)) ↔
    ∃ r, r < 2 ^ 256 ∧ exec (.hugeuintreciprocal2 d) s = .next (s.answeredWith (wordResponse r)))

/-! ## The reference procedures -/

/-- R102, R103: the carry and borrow chains give the result and the TRUNC of `hugeuintadd` and `hugeuintsub`; extended
to one, two or three limbs they give the sum and the difference modulo `2^W`, the non-negative remainders, with the
carry and the borrow out of the highest limb. -/
def Obligations.CarryAndBorrowChainsGiveTheResults : Prop :=
  (∀ (A B : U512),
    carryChain A B = (addW A B, if addTruncates A B then 1 else 0) ∧
    borrowChain A B = (subW A B, if subTruncates A B then 1 else 0) ∧
    carryChainW A B = carryChain A B ∧ borrowChainW A B = borrowChain A B) ∧
  (∀ W : Nat, W = 256 ∨ W = 512 ∨ W = 768 → ∀ x y : FixedWidthUint W,
    carryChainW x y = (addW x y, if 2 ^ W ≤ x.toNat + y.toNat then 1 else 0) ∧
    borrowChainW x y = (subW x y, if x.toNat < y.toNat then 1 else 0) ∧
    (addW x y).toNat = (x.toNat + y.toNat) % 2 ^ W ∧
    ((subW x y).toNat : Int) = ((x.toNat : Int) - (y.toNat : Int)) % (2 ^ W : Nat))

/-- R112: the schoolbook product gives the result and the TRUNC of `hugeuintmul`, with the full product in its two
parts. -/
def Obligations.SchoolbookProductGivesTheResult : Prop :=
  ∀ (A B : U512),
    (schoolbook A B).1 = mul512 A B ∧
    (mulTruncates A B = true ↔ (schoolbook A B).2 ≠ 0) ∧
    A.toNat * B.toNat = (schoolbook A B).2 * 2 ^ 512 + (schoolbook A B).1.toNat

/-- R129: restoring division gives the quotient and the remainder, at every width, for every numerator of that
width and every non-zero divisor. -/
def Obligations.RestoringDivisionGivesQuotientAndRemainder : Prop :=
  ∀ W N D : Nat, N < 2 ^ W → 0 < D → restoringDiv W N D = (N / D, N % D)

/-- R141: the byte scan gives the count of `hugeuintclz` for every operand. -/
def Obligations.ByteScanGivesTheLeadingZeroCount : Prop :=
  ∀ A : U256, byteScan A = clzCount A

/-! ## Decode faults -/

/-- R173: a frame whose opcode is 0x00 or 0x0C or more is answered with `IllegalCommand`, whatever its length and
its other bytes. -/
def Obligations.ReservedOpcodeIsAnsweredIllegalCommand : Prop :=
  ∀ (s : State) (op : Byte) (operands : Frame), op.toNat = 0 ∨ 0x0C ≤ op.toNat →
    s.runFrame (op :: operands) = .next (s.answeredWith (faultResponse 0x02))

/-- R172: the empty frame, and a frame with a valid opcode and not the length of its format, are answered with
`MalformedInput`, whatever the operand bytes. -/
def Obligations.WrongLengthIsAnsweredMalformedInput : Prop :=
  (∀ s : State, s.runFrame [] = .next (s.answeredWith (faultResponse 0x01))) ∧
  (∀ (s : State) (op : Byte) (operands : Frame),
    ((1 ≤ op.toNat ∧ op.toNat ≤ 6 ∨ op.toNat = 8) ∧ operands.length + 1 ≠ 129 ∨
      op.toNat = 7 ∧ operands.length + 1 ≠ 97 ∨
      (op.toNat = 9 ∨ op.toNat = 10) ∧ operands.length + 1 ≠ 33 ∨
      op.toNat = 11 ∧ operands.length + 1 ≠ 65) →
    s.runFrame (op :: operands) = .next (s.answeredWith (faultResponse 0x01)))

/-! ## The step -/

/-- A step runs the decoded command. In phase `BUSY`, behind any moves that wait in that phase, the unit's own
`execute` is taken; with nothing but waiting moves in the schedule the unit executes of its own accord (R211). The
step is then `exec` of the decoded command, with the taken `execute` gone from the schedule and nothing else
changed around it. The order of the moves is the model's (log 2). -/
def Obligations.StepRunsTheDecodedCommand : Prop :=
  ∀ (s : State) (cmd : Frame) (i : Instr) (waiting rest : List Move),
    s.phase = .busy cmd → decode cmd = .ok i → waiting.all Move.waitsInBusy = true →
    (s.schedule = waiting → step s = exec i s) ∧
    (s.schedule = waiting ++ .execute :: rest → step s = exec i { s with schedule := waiting ++ rest })

/-- R176: a frame the decoder rejects is answered, by the same step, with the two bytes of its fault, and nothing
is saved anywhere. -/
def Obligations.StepAnswersADecodeFault : Prop :=
  ∀ (s : State) (cmd : Frame) (waiting rest : List Move),
    s.phase = .busy cmd → waiting.all Move.waitsInBusy = true →
    (s.schedule = waiting → decode cmd = .error .malformedInput →
      step s = .next (s.answeredWith (faultResponse 0x01))) ∧
    (s.schedule = waiting → decode cmd = .error .illegalCommand →
      step s = .next (s.answeredWith (faultResponse 0x02))) ∧
    (s.schedule = waiting ++ .execute :: rest → decode cmd = .error .malformedInput →
      step s = .next (({ s with schedule := waiting ++ rest } : State).answeredWith (faultResponse 0x01))) ∧
    (s.schedule = waiting ++ .execute :: rest → decode cmd = .error .illegalCommand →
      step s = .next (({ s with schedule := waiting ++ rest } : State).answeredWith (faultResponse 0x02))) ∧
    (∀ c, decode cmd = .error c → c = .malformedInput ∨ c = .illegalCommand)

/-- The steps of the host (R19) and one clock edge (R80): when the move comes next and is enabled, what it does to the
state, and all it does. A frame is accepted with no frame half collected (log 7); the schedule is the model's own
(log 2). -/
def Obligations.HostStepsDoWhatTheirRowsSay : Prop :=
  ∀ (s : State) (rest : List Move),
    (∀ f, s.phase = .idle → s.rx = [] → s.schedule = .accept f :: rest →
      step s = .next { s with phase := .busy f, schedule := rest }) ∧
    (∀ rsp, s.phase = .resp rsp → s.schedule = .deliver :: rest →
      step s = .next { s with phase := .idle, taken := 0, schedule := rest, received := s.received ++ [rsp] }) ∧
    (s.schedule = .reset :: rest →
      step s = .next { s with phase := .idle, rx := [], taken := 0, schedule := rest }) ∧
    (∀ p, s.schedule = .edge p :: rest → step s = .next (({ s with schedule := rest } : State).clockEdge p))

/-- A frame offered while the unit is in `BUSY` or `RESP` is not accepted and not lost: whatever step comes, the
offer is still at the head of the schedule (R19). The schedule is the model's own (log 2). -/
def Obligations.OfferedFrameWaitsOutsideIdle : Prop :=
  ∀ (s t : State) (f : Frame) (rest : List Move),
    s.phase ≠ .idle → s.schedule = .accept f :: rest → step s = .next t →
    (∃ rest', t.schedule = .accept f :: rest' ∧ rest'.Sublist rest) ∧ ∀ cmd, t.phase = .busy cmd → s.phase = .busy cmd

/-- The latches (R11, R12): a held command is answered, abandoned by a reset, or held unchanged; a held response is
taken whole by the host, dropped by a reset, or held unchanged. A response is dropped only where a reset or a clock
edge with `rst` high stands in the schedule. -/
def Obligations.LatchesAreHeldUntilAnsweredTakenOrReset : Prop :=
  ∀ s t : State, step s = .next t →
    (∀ cmd, s.phase = .busy cmd →
      t.phase = .busy cmd ∨ (∃ rsp, t.phase = .resp rsp) ∨
      (t.phase = .idle ∧ t.received = s.received ∧
        ∃ m ∈ s.schedule, m = .reset ∨ ∃ p, m = .edge p ∧ p.rst = true)) ∧
    (∀ rsp, s.phase = .resp rsp →
      (t.phase = .resp rsp ∧ t.received = s.received) ∨
      (t.phase = .idle ∧ t.received = s.received ++ [rsp]) ∨
      (t.phase = .idle ∧ t.received = s.received ∧
        ∃ m ∈ s.schedule, m = .reset ∨ ∃ p, m = .edge p ∧ p.rst = true))

/-- No step changes `RECIP_PRECHECK` (R16), no step takes a received response back, and no step refuses. -/
def Obligations.NoStepChangesTheParameter : Prop :=
  ∀ s : State,
    (∀ t, step s = .next t → t.cfg = s.cfg ∧ s.received <+: t.received) ∧
    (∀ r, step s ≠ .refused r)

/-- The machine stops exactly when no step is enabled: it is not busy and every scheduled move waits (R19, U15).
That it then stops, where the unit would stay as it is, is the model's choice (log 3). -/
def Obligations.MachineStopsExactlyWhenNoStepIsEnabled : Prop :=
  ∀ s : State,
    step s = .fault .noEnabledStep ↔
      (s.phase = .idle ∨ ∃ rsp, s.phase = .resp rsp) ∧ ∀ m ∈ s.schedule, s.enabled m = false

/-- R22 (with R21): there is one function of the parameter and the frame that every unit, in every state that holds
the frame, answers with when it executes. That a unit with nothing scheduled executes in the very next step is
deduced (log 4), and the schedule is the model's own (log 2). -/
def Obligations.ResponseIsAFunctionOfFrameAndParameter : Prop :=
  ∃ respond : Bool → Frame → Frame, ∀ (s : State) (cmd : Frame), s.phase = .busy cmd →
    (s.schedule = [] → step s = .next (s.answeredWith (respond s.cfg.recipPrecheck cmd))) ∧
    (∀ rest, s.schedule = .execute :: rest →
      step s = .next (({ s with schedule := rest } : State).answeredWith (respond s.cfg.recipPrecheck cmd)))

/-- R154: the parameter changes nothing but the STATUS of the fault of a reciprocal whose divisor is non-zero and
below the documented range: 0x04 without the check, 0x05 with it. -/
def Obligations.ParameterChangesOnlyTheStatusOfRangeFaults : Prop :=
  ∀ (s : State) (cmd : Frame),
    (∃ rsp,
      ({ s with cfg := ⟨false⟩ } : State).runFrame cmd = .next (({ s with cfg := ⟨false⟩ } : State).answeredWith rsp) ∧
      ({ s with cfg := ⟨true⟩ } : State).runFrame cmd = .next (({ s with cfg := ⟨true⟩ } : State).answeredWith rsp)) ∨
    (({ s with cfg := ⟨false⟩ } : State).runFrame cmd =
        .next (({ s with cfg := ⟨false⟩ } : State).answeredWith (faultResponse 0x04)) ∧
      ({ s with cfg := ⟨true⟩ } : State).runFrame cmd =
        .next (({ s with cfg := ⟨true⟩ } : State).answeredWith (faultResponse 0x05)) ∧
      ((∃ d, decode cmd = .ok (.hugeuintreciprocal d) ∧ 0 < d.toNat ∧ d.toNat < 2 ^ 255) ∨
        (∃ d, decode cmd = .ok (.hugeuintreciprocal2 d) ∧ 0 < d.toNat ∧ d.toNat < 2 ^ 511)))

/-- R211: a unit that holds a command and is not reset answers it after finitely many steps, whatever frames, takes
and clock edges the host drives meanwhile: at most one step for each scheduled move and one more. The answer is the
response of that very frame. Steps and schedule are the model's own (log 2, log 4). -/
def Obligations.EveryAcceptedCommandIsAnswered : Prop :=
  ∀ (s : State) (cmd : Frame), s.phase = .busy cmd →
    (∀ m ∈ s.schedule, m ≠ .reset ∧ ∀ p, m = .edge p → p.rst = false) →
    ∃ (k : Nat) (t : State) (rsp : Frame), k ≤ s.schedule.length + 1 ∧
      Sys2Proof.core.run k s = .next t ∧ t.phase = .resp rsp ∧
      s.runFrame cmd = .next (s.answeredWith rsp) ∧ legalResponse s.cfg rsp = true

/-- One transaction (R19): from `IDLE`, `accept(f)`, `execute` and `deliver` bring the unit back to `IDLE`, with the
response of `f` in the host's hands and nothing else changed (R201). The schedule is the model's own (log 2). -/
def Obligations.TransactionReturnsToIdleWithOneResponse : Prop :=
  ∀ (s : State) (f : Frame) (rest : List Move), s.phase = .idle → s.rx = [] → s.taken = 0 →
    s.schedule = .accept f :: .execute :: .deliver :: rest →
    ∃ rsp, s.runFrame f = .next (s.answeredWith rsp) ∧ legalResponse s.cfg rsp = true ∧
      Sys2Proof.core.run 3 s = .next { s with schedule := rest, received := s.received ++ [rsp] }

/-- R181: after a response has been taken, whatever it was, the unit accepts and executes the next command exactly
as a unit of the same parameter does right after reset. -/
def Obligations.FaultsAreNotSticky : Prop :=
  ∀ (s : State) (rsp f : Frame) (rest : List Move), s.phase = .resp rsp → s.rx = [] →
    s.schedule = .deliver :: .accept f :: .execute :: rest →
    ∃ answer : Frame,
      Sys2Proof.core.run 3 s = .next
        (({ s with schedule := rest, received := s.received ++ [rsp] } : State).answeredWith answer) ∧
      Sys2Proof.core.run 2 { State.resetWith s.cfg with schedule := [.accept f, .execute] } =
        .next ((State.resetWith s.cfg).answeredWith answer)

/-! ## Reset and the invariant -/

/-- R20: what reset leaves. The phase is `IDLE`, so that neither latch holds a value, and the parameter is the
unit's own constant; a `reset` step leaves the same from every state. (The empty schedule and the empty list of
received responses are the model's own fields: log 2, log 9.) -/
def Obligations.ResetLeavesIdleAndTheParameter : Prop :=
  (∀ c : Config, (State.resetWith c).phase = .idle ∧ (State.resetWith c).cfg = c ∧
    (State.resetWith c).rx = [] ∧ (State.resetWith c).taken = 0) ∧
  State.reset = State.resetWith ⟨false⟩ ∧
  (∀ s : State, s.resetUnit = { State.resetWith s.cfg with schedule := s.schedule, received := s.received })

/-- The invariant holds after reset, for every parameter. -/
def Obligations.ResetMeetsTheInvariant : Prop :=
  ∀ c : Config, (State.resetWith c).inv = true

/-- Every step keeps the invariant: the response latch holds a legal response of R75, bytes are collected in `IDLE`
only and taken in `RESP` only, and every response the host has received is legal. -/
def Obligations.EveryStepKeepsTheInvariant : Prop :=
  ∀ s t : State, s.inv = true → step s = .next t → t.inv = true

/-! ## The channels -/

/-- R80, refinement: a frame sent byte by byte, with any stalls and whatever stands on `rsp_ready`, is exactly the
step `accept(f)` of R19, also as a run of `step` over the edges. That the unit never stalls the command channel in
`IDLE` is the model's choice (log 18). The pins are sampled edge by edge; the edges at which
`cmd_valid` is high carry the frame's bytes in order, the last one marked. -/
def Obligations.FrameSentByteByByteIsAccepted : Prop :=
  ∀ (s : State) (f : Frame) (ps : List Pins), s.phase = .idle → s.rx = [] → f ≠ [] →
    ps.all (fun p => !p.rst) = true →
    (ps.filter (·.cmdValid)).map (fun p => (p.cmdData, p.cmdLast)) = markLast f →
    s.afterEdges ps = s.accept f ∧
    ∀ rest, s.schedule = ps.map Move.edge ++ rest →
      Sys2Proof.core.run ps.length s = .next (({ s with schedule := rest } : State).accept f)

/-- R80, refinement: a response taken byte by byte, with any stalls, is exactly the step `deliver` of R19, also as a run
of `step` over the edges, and the bytes that move are the response's, in order. The edge `p` takes the last byte; what
the host drives on the command channel up to that edge does not matter, and afterwards it offers nothing. That the
unit never stalls the response channel in `RESP` is the model's choice (log 18). -/
def Obligations.ResponseTakenByteByByteIsDelivered : Prop :=
  ∀ (s : State) (rsp : Frame) (ps : List Pins) (p : Pins) (qs : List Pins), s.phase = .resp rsp → s.taken = 0 →
    ps.all (fun p => !p.rst) = true → (ps.filter (·.rspReady)).length + 1 = rsp.length →
    p.rst = false → p.rspReady = true → qs.all (fun p => !p.rst && !p.cmdValid) = true →
    s.afterEdges (ps ++ p :: qs) = s.deliver ∧ s.bytesTaken (ps ++ p :: qs) = rsp ∧
    ∀ rest, s.schedule = (ps ++ p :: qs).map Move.edge ++ rest →
      Sys2Proof.core.run (ps ++ p :: qs).length s = .next ({ s with schedule := rest } : State).deliver

/-- R80, R203: an edge at which nothing moves changes nothing. While the unit is busy no byte moves at all, whatever
the host drives; in `RESP` no command byte moves; and only `rst` drops anything. -/
def Obligations.BytesMoveOnlyWhereTheChannelIsReady : Prop :=
  ∀ (s : State) (p : Pins), p.rst = false →
    (∀ cmd, s.phase = .busy cmd → s.clockEdge p = s) ∧
    (s.phase = .idle → p.cmdValid = false → s.clockEdge p = s) ∧
    (∀ rsp, s.phase = .resp rsp → p.rspReady = false → s.clockEdge p = s) ∧
    (∀ rsp, s.phase = .resp rsp → (s.clockEdge p).rx = s.rx ∧ ∀ cmd, (s.clockEdge p).phase ≠ .busy cmd)

/-- R200: from every state, one clock edge with `rst` high drops what was in progress: the next frame sent byte by
byte is accepted from its offset 0, and no response is produced for what was held. That no byte moves at that edge is
deduced (log 6); that the unit never stalls the command channel in `IDLE` is the model's choice (log 18). -/
def Obligations.ResetEdgeDropsTransfersInProgress : Prop :=
  ∀ (s : State) (f : Frame) (p : Pins) (ps : List Pins), p.rst = true → f ≠ [] →
    ps.all (fun p => !p.rst) = true →
    (ps.filter (·.cmdValid)).map (fun p => (p.cmdData, p.cmdLast)) = markLast f →
    s.clockEdge p = { s with phase := .idle, rx := [], taken := 0 } ∧
    s.afterEdges (p :: ps) = { s with phase := .busy f, rx := [], taken := 0 }

/-! ## Text -/

/-- R90: a line of command text assembles exactly when it is a mnemonic and parameters separated by single spaces,
each parameter spelling its bytes two digits a byte, most significant first, in either case and with `0x` or without,
as many and as long as the command's format says; and then to the opcode and those bytes. So an unknown mnemonic, an
odd number of digits and any other number of digits do not assemble. -/
def Obligations.CommandTextAssembles : Prop :=
  ∀ (line : List Char) (frame : Frame), assembleText line = some frame ↔
    ∃ (c : Command) (params : List (List Char)) (bytes : List Frame),
      line = commandLine c params ∧
      List.Forall₂ (fun p s => spellsParam p s = true) params bytes ∧
      bytes.map List.length = c.format.operandBytes ∧
      frame = c.opcode :: bytes.flatten

/-- Reading a response frame by its format gives back its numbers, its flag or its fault (R75, R91). That a response is
read into these data is the model's choice (log 15). -/
def Obligations.ResponseReadsBack : Prop :=
  (∀ (t : Bool) (v : Nat), v < 2 ^ 512 →
    readResponse (pairResponse t v) = some (.okPair (v % 2 ^ 256) (v / 2 ^ 256) t)) ∧
  (∀ v : Nat, v < 2 ^ 256 → readResponse (wordResponse v) = some (.okWord v)) ∧
  (∀ c : Cause, readResponse (faultFrame c) = some (.fault c))
end

