-- ==== Sys2Proof/Laws/Bytes.lean ====
section
/-!
SUPPORT. The number and the bytes: lengths, bounds, and how `fromBe` and `toBe` split.
-/

namespace Sys2Proof

@[simp] theorem toBe_length (n v : Nat) : (toBe n v).length = n := by
  induction n generalizing v <;> simp [toBe, *]

@[simp] theorem toBeW_length {W : Nat} (v : FixedWidthUint W) : (toBeW v).length = W / 8 := toBe_length _ _

@[simp] theorem fromBe_nil : fromBe [] = 0 := rfl

theorem fromBe_cons (b : Byte) (s : Frame) : fromBe (b :: s) = b.toNat * 256 ^ s.length + fromBe s := rfl

/-- The value of `n` bytes is below `256^n`. -/
theorem fromBe_lt (s : Frame) : fromBe s < 256 ^ s.length := by
  induction s with
  | nil => simp
  | cons b s ih =>
    simp only [fromBe_cons, List.length_cons, pow_succ]
    have := b.isLt
    nlinarith

/-- A string's value from those of its two parts. -/
theorem fromBe_append (s t : Frame) : fromBe (s ++ t) = fromBe s * 256 ^ t.length + fromBe t := by
  induction s with
  | nil => simp
  | cons b s ih => simp only [List.cons_append, fromBe_cons, ih, List.length_append, pow_add]; ring

/-- The `n` bytes of a number do not see what lies at `256^n` or above. -/
theorem toBe_add_mul (n v k : Nat) : toBe n (v + k * 256 ^ n) = toBe n v := by
  induction n generalizing v k with
  | zero => rfl
  | succ n ih =>
    have h : v + k * 256 ^ (n + 1) = v + k * 256 * 256 ^ n := by ring
    simp only [toBe, h, ih]
    congr 1
    rw [Nat.add_mul_div_right _ _ (by positivity)]
    exact BitVec.eq_of_toNat_eq (by simp)

theorem toBe_mod (n v : Nat) : toBe n (v % 256 ^ n) = toBe n v := by
  conv_rhs => rw [← Nat.mod_add_div' v (256 ^ n)]
  rw [toBe_add_mul]

theorem slice_length (s : Frame) (i j : Nat) (h : j ≤ s.length) : (slice s i j).length = j - i := by
  simp [slice]; omega

end Sys2Proof
end

