-- ==== Sys2Proof/Laws/Datapath.lean ====
section
/-!
SUPPORT. What the limb chains can do, said once for any number of limbs: the sum or difference they spell, how many
limbs they give, and that a carry or a borrow is 0 or 1.
-/

namespace Sys2Proof.Machine

@[simp] theorem limbSum_nil : limbSum [] = 0 := rfl

theorem limbSum_cons (l : U256) (ls : List U256) : limbSum (l :: ls) = l.toNat + 2 ^ 256 * limbSum ls := rfl

@[simp] theorem limbsOf_length {W : Nat} (v : FixedWidthUint W) : (limbsOf v).length = W / 256 := by simp [limbsOf]

/-- The number of `n` limbs is below `2^(256*n)`. -/
theorem limbSum_lt (ls : List U256) : limbSum ls < 2 ^ (256 * ls.length) := by
  induction ls with
  | nil => simp
  | cons l ls ih =>
    have e : (2 : Nat) ^ (256 * (l :: ls).length) = 2 ^ 256 * 2 ^ (256 * ls.length) := by
      rw [← pow_add, List.length_cons]; congr 1; ring
    have := l.isLt
    rw [e, limbSum_cons]
    calc l.toNat + 2 ^ 256 * limbSum ls < 2 ^ 256 * (limbSum ls + 1) := by rw [Nat.mul_add]; omega
      _ ≤ 2 ^ 256 * 2 ^ (256 * ls.length) := Nat.mul_le_mul_left _ ih

theorem addLimbs_length (c : Nat) (as bs : List U256) (h : as.length = bs.length) :
    (addLimbs c as bs).1.length = as.length := by
  induction as generalizing c bs with
  | nil => cases bs <;> rfl
  | cons a as ih => cases bs with
    | nil => cases h
    | cons b bs => simpa [addLimbs] using ih _ bs (by simpa using h)

theorem subLimbs_length (c : Nat) (as bs : List U256) (h : as.length = bs.length) :
    (subLimbs c as bs).1.length = as.length := by
  induction as generalizing c bs with
  | nil => cases bs <;> rfl
  | cons a as ih => cases bs with
    | nil => cases h
    | cons b bs => simpa [subLimbs] using ih _ bs (by simpa using h)

/-- The limbs of the chain and its carry spell the exact sum. -/
theorem addLimbs_sum (c : Nat) (as bs : List U256) (h : as.length = bs.length) :
    limbSum (addLimbs c as bs).1 + 2 ^ (256 * as.length) * (addLimbs c as bs).2 = limbSum as + limbSum bs + c := by
  induction as generalizing c bs with
  | nil => cases bs <;> simp_all [addLimbs]
  | cons a as ih => cases bs with
    | nil => cases h
    | cons b bs =>
      have := ih ((a.toNat + b.toNat + c) / 2 ^ 256) bs (by simpa using h)
      have e : (2 : Nat) ^ (256 * (a :: as).length) = 2 ^ 256 * 2 ^ (256 * as.length) := by
        rw [← pow_add, List.length_cons]; congr 1; ring
      simp only [addLimbs, limbSum_cons, BitVec.toNat_ofNat]
      rw [e, Nat.mul_assoc]
      generalize 2 ^ (256 * as.length) * (addLimbs ((a.toNat + b.toNat + c) / 2 ^ 256) as bs).2 = k at *
      omega

/-- Every carry is 0 or 1 (R102). -/
theorem addLimbs_carry (c : Nat) (as bs : List U256) (hc : c ≤ 1) : (addLimbs c as bs).2 ≤ 1 := by
  induction as generalizing c bs with
  | nil => cases bs <;> exact hc
  | cons a as ih => cases bs with
    | nil => exact hc
    | cons b bs =>
      have := a.isLt
      have := b.isLt
      exact ih _ bs (by omega)

/-- Every borrow is 0 or 1 (R102). -/
theorem borrow_le (d : Int) : borrow d ≤ 1 := by unfold borrow; split <;> decide

theorem subLimbs_borrow (c : Nat) (as bs : List U256) (hc : c ≤ 1) : (subLimbs c as bs).2 ≤ 1 := by
  induction as generalizing c bs with
  | nil => cases bs <;> exact hc
  | cons a as ih => cases bs with
    | nil => exact hc
    | cons b bs => exact ih _ bs (borrow_le _)

/-- One step of the borrow chain: the limb less its borrow is the integer difference. -/
theorem subLimb_eq (d : Int) (h1 : -(2 ^ 256) ≤ d) (h2 : d < 2 ^ 256) :
    ((BitVec.ofInt 256 d).toNat : Int) = d + 2 ^ 256 * borrow d := by
  rw [BitVec.toNat_ofInt, Int.toNat_of_nonneg (Int.emod_nonneg _ (by decide))]
  unfold borrow
  split <;> push_cast <;> omega

/-- The limbs of the chain and its borrow spell the exact difference. -/
theorem subLimbs_sum (c : Nat) (as bs : List U256) (hc : c ≤ 1) (h : as.length = bs.length) :
    (limbSum (subLimbs c as bs).1 : Int) =
      limbSum as - limbSum bs - c + (2 ^ (256 * as.length) * (subLimbs c as bs).2 : Nat) := by
  induction as generalizing c bs with
  | nil => cases bs <;> simp_all [subLimbs]
  | cons a as ih => cases bs with
    | nil => cases h
    | cons b bs =>
      have := ih (borrow ((a.toNat : Int) - b.toNat - c)) bs (borrow_le _) (by simpa using h)
      have e : (2 : Nat) ^ (256 * (a :: as).length) = 2 ^ 256 * 2 ^ (256 * as.length) := by
        rw [← pow_add, List.length_cons]; congr 1; ring
      have ha := a.isLt
      have hb := b.isLt
      have l := subLimb_eq ((a.toNat : Int) - b.toNat - c) (by omega) (by omega)
      simp only [subLimbs, limbSum_cons, e, Nat.mul_assoc]
      generalize 2 ^ (256 * as.length) * (subLimbs (borrow ((a.toNat : Int) - b.toNat - c)) as bs).2 = k at *
      generalize (BitVec.ofInt 256 ((a.toNat : Int) - b.toNat - c)).toNat = m at *
      push_cast
      omega

end Sys2Proof.Machine
end

