-- ==== Sys2Proof/Laws/State.lean ====
section
/-!
SUPPORT. One lemma for each field of State under each of the updates, so that no proof unfolds a record.
-/

namespace Sys2Proof.Machine

/-! ## Latching a response -/

theorem latchResponse_cfg (rsp : Frame) (s : State) : (s.latchResponse rsp).cfg = s.cfg := rfl
theorem latchResponse_phase (rsp : Frame) (s : State) : (s.latchResponse rsp).phase = .resp rsp := rfl
theorem latchResponse_rx (rsp : Frame) (s : State) : (s.latchResponse rsp).rx = s.rx := rfl
theorem latchResponse_taken (rsp : Frame) (s : State) : (s.latchResponse rsp).taken = 0 := rfl
theorem latchResponse_schedule (rsp : Frame) (s : State) : (s.latchResponse rsp).schedule = s.schedule := rfl
theorem latchResponse_received (rsp : Frame) (s : State) : (s.latchResponse rsp).received = s.received := rfl

/-! ## The state answered with a response -/

@[simp] theorem answeredWith_cfg (rsp : Frame) (s : State) : (s.answeredWith rsp).cfg = s.cfg := rfl
@[simp] theorem answeredWith_phase (rsp : Frame) (s : State) : (s.answeredWith rsp).phase = .resp rsp := rfl
@[simp] theorem answeredWith_rx (rsp : Frame) (s : State) : (s.answeredWith rsp).rx = s.rx := rfl
@[simp] theorem answeredWith_taken (rsp : Frame) (s : State) : (s.answeredWith rsp).taken = 0 := rfl
@[simp] theorem answeredWith_schedule (rsp : Frame) (s : State) : (s.answeredWith rsp).schedule = s.schedule := rfl
@[simp] theorem answeredWith_received (rsp : Frame) (s : State) : (s.answeredWith rsp).received = s.received := rfl

/-! ## `accept` -/

@[simp] theorem accept_cfg (f : Frame) (s : State) : (s.accept f).cfg = s.cfg := rfl
@[simp] theorem accept_phase (f : Frame) (s : State) : (s.accept f).phase = .busy f := rfl
@[simp] theorem accept_rx (f : Frame) (s : State) : (s.accept f).rx = [] := rfl
@[simp] theorem accept_taken (f : Frame) (s : State) : (s.accept f).taken = s.taken := rfl
@[simp] theorem accept_schedule (f : Frame) (s : State) : (s.accept f).schedule = s.schedule := rfl
@[simp] theorem accept_received (f : Frame) (s : State) : (s.accept f).received = s.received := rfl

/-! ## `reset` -/

@[simp] theorem resetUnit_cfg (s : State) : s.resetUnit.cfg = s.cfg := rfl
@[simp] theorem resetUnit_phase (s : State) : s.resetUnit.phase = .idle := rfl
@[simp] theorem resetUnit_rx (s : State) : s.resetUnit.rx = [] := rfl
@[simp] theorem resetUnit_taken (s : State) : s.resetUnit.taken = 0 := rfl
@[simp] theorem resetUnit_schedule (s : State) : s.resetUnit.schedule = s.schedule := rfl
@[simp] theorem resetUnit_received (s : State) : s.resetUnit.received = s.received := rfl

/-- `latchResponse` and the statements' `answeredWith` are the same update. -/
@[simp] theorem latchResponse_eq_answeredWith (rsp : Frame) (s : State) : s.latchResponse rsp = s.answeredWith rsp := rfl

/-! ## `deliver` -/

theorem deliver_cfg (s : State) (rsp : Frame) (h : s.phase = .resp rsp) :
    s.deliver.cfg = s.cfg := by simp [State.deliver, h]
theorem deliver_phase (s : State) (rsp : Frame) (h : s.phase = .resp rsp) :
    s.deliver.phase = .idle := by simp [State.deliver, h]
theorem deliver_rx (s : State) (rsp : Frame) (h : s.phase = .resp rsp) :
    s.deliver.rx = s.rx := by simp [State.deliver, h]
theorem deliver_taken (s : State) (rsp : Frame) (h : s.phase = .resp rsp) :
    s.deliver.taken = 0 := by simp [State.deliver, h]
theorem deliver_schedule (s : State) (rsp : Frame) (h : s.phase = .resp rsp) :
    s.deliver.schedule = s.schedule := by simp [State.deliver, h]
theorem deliver_received (s : State) (rsp : Frame) (h : s.phase = .resp rsp) :
    s.deliver.received = s.received ++ [rsp] := by simp [State.deliver, h]

/-- `deliver` on a response, as one record. -/
theorem deliver_eq (s : State) (rsp : Frame) (h : s.phase = .resp rsp) :
    s.deliver = { s with phase := .idle, taken := 0, received := s.received ++ [rsp] } := by
  simp [State.deliver, h]

/-! ## Reset -/

@[simp] theorem resetWith_cfg (c : Config) : (State.resetWith c).cfg = c := rfl
@[simp] theorem resetWith_phase (c : Config) : (State.resetWith c).phase = .idle := rfl
@[simp] theorem resetWith_rx (c : Config) : (State.resetWith c).rx = [] := rfl
@[simp] theorem resetWith_taken (c : Config) : (State.resetWith c).taken = 0 := rfl
@[simp] theorem resetWith_schedule (c : Config) : (State.resetWith c).schedule = [] := rfl
@[simp] theorem resetWith_received (c : Config) : (State.resetWith c).received = [] := rfl

@[simp] theorem reset_eq : State.reset = State.resetWith Config.default := rfl

/-! ## Which channel is ready (R80) -/

theorem cmdReady_idle (s : State) (h : s.phase = .idle) : s.cmdReady = true := by simp [State.cmdReady, h]
theorem rspValid_idle (s : State) (h : s.phase = .idle) : s.rspValid = false := by simp [State.rspValid, h]
theorem cmdReady_busy (s : State) (f : Frame) (h : s.phase = .busy f) : s.cmdReady = false := by simp [State.cmdReady, h]
theorem rspValid_busy (s : State) (f : Frame) (h : s.phase = .busy f) : s.rspValid = false := by simp [State.rspValid, h]
theorem cmdReady_resp (s : State) (f : Frame) (h : s.phase = .resp f) : s.cmdReady = false := by simp [State.cmdReady, h]
theorem rspValid_resp (s : State) (f : Frame) (h : s.phase = .resp f) : s.rspValid = true := by simp [State.rspValid, h]

end Sys2Proof.Machine
end

