-- ==== Sys2Proof/Laws/Ops.lean ====
section
/-!
SUPPORT. What each shared operation can do, said once: answering, choosing the next move, one clock edge, and the
arithmetic of one width.
-/

namespace Sys2Proof.Machine

/-! ## Values -/

theorem limb_toNat {W : Nat} (i : Nat) (v : FixedWidthUint W) :
    (limb i v).toNat = v.toNat / 2 ^ (256 * i) % 2 ^ 256 := BitVec.toNat_ofNat _ _

/-- Widening keeps the number whenever the width does not shrink. -/
theorem zext_toNat (W : Nat) {V : Nat} (v : FixedWidthUint V) (h : V ≤ W) : (zext W v).toNat = v.toNat := by
  have : v.toNat < 2 ^ W := lt_of_lt_of_le v.isLt (Nat.pow_le_pow_right (by decide) h)
  simp [zext, Nat.mod_eq_of_lt this]

/-- The division of a non-zero divisor, and of zero. -/
theorem divfloor_cases {W : Nat} (a b : FixedWidthUint W) :
    (b.toNat = 0 ∧ divfloor a b = .error .divisionByZero) ∨
    (b.toNat ≠ 0 ∧ ∃ Q : FixedWidthUint W, divfloor a b = .ok Q ∧ Q.toNat = a.toNat / b.toNat) := by
  unfold divfloor
  split
  · exact .inl ⟨‹_›, rfl⟩
  · exact .inr ⟨‹_›, _, rfl, by
      rw [BitVec.toNat_ofNat, Nat.mod_eq_of_lt (lt_of_le_of_lt (Nat.div_le_self _ _) a.isLt)]⟩

/-- Narrowing faults or keeps the number. -/
theorem narrow256_cases {W : Nat} (v : FixedWidthUint W) :
    (2 ^ 256 ≤ v.toNat ∧ narrow256 v = .error .narrowingViolation) ∨
    (v.toNat < 2 ^ 256 ∧ ∃ r : U256, narrow256 v = .ok r ∧ r.toNat = v.toNat) := by
  unfold narrow256
  split
  · exact .inl ⟨‹_›, rfl⟩
  · exact .inr ⟨by omega, _, rfl, by rw [BitVec.toNat_ofNat, Nat.mod_eq_of_lt (by omega)]⟩

/-! ## Answering -/

/-- A response frame of an answer. -/
def answerFrame : Except Cause Reply → Frame
  | .ok r => okFrame r
  | .error c => faultFrame c

/-- Every answer is a next state that differs by the response alone: taking a fault is no more than that. -/
theorem answer_eq (r : Except Cause Reply) (s : State) : s.answer r = .next (s.answeredWith (answerFrame r)) := by
  cases r <;> rfl

/-! ## Choosing the next move -/

/-- Moves that wait are passed over and stay where they are. -/
theorem firstEnabled_skip (en : Move → Bool) (w rest : List Move) (h : ∀ m ∈ w, en m = false) :
    firstEnabled en (w ++ rest) = (firstEnabled en rest).map fun r => (r.1, w ++ r.2) := by
  induction w with
  | nil => simp
  | cons m w ih =>
    simp only [List.cons_append, firstEnabled, h m (by simp), ih fun m hm => h m (by simp [hm])]
    simp [Function.comp_def]

theorem firstEnabled_none (en : Move → Bool) (w : List Move) : firstEnabled en w = none ↔ ∀ m ∈ w, en m = false := by
  induction w with
  | nil => simp [firstEnabled]
  | cons m w ih => cases h : en m <;> simp [firstEnabled, ih, h]

/-- The chosen move is enabled, every move before it waits, and the list is left without it. -/
theorem firstEnabled_some (en : Move → Bool) (w : List Move) (m : Move) (rest : List Move)
    (h : firstEnabled en w = some (m, rest)) :
    en m = true ∧ ∃ a b, w = a ++ m :: b ∧ rest = a ++ b ∧ ∀ x ∈ a, en x = false := by
  induction w generalizing rest with
  | nil => simp [firstEnabled] at h
  | cons x w ih =>
    cases hx : en x <;> simp only [firstEnabled, hx, Bool.false_eq_true, if_false, if_true, Option.map_eq_some_iff,
      Option.some.injEq, Prod.mk.injEq] at h
    · obtain ⟨⟨m', r⟩, h1, rfl, rfl⟩ := h
      obtain ⟨h3, a, b, rfl, rfl, h4⟩ := ih _ h1
      exact ⟨h3, x :: a, b, rfl, rfl, by simpa [hx] using h4⟩
    · obtain ⟨rfl, rfl⟩ := h
      exact ⟨hx, [], w, rfl, rfl, by simp⟩

/-- What `chosen` can answer: a move of the schedule behind moves that wait, or the unit's own `execute` behind
nothing but moves that wait. -/
theorem chosen_cases (s : State) (m : Move) (s' : State) (h : s.chosen = some (m, s')) :
    s.enabled m = true ∧
    ((∃ a b, s.schedule = a ++ m :: b ∧ s' = { s with schedule := a ++ b } ∧ ∀ x ∈ a, s.enabled x = false) ∨
      (m = .execute ∧ s' = s ∧ ∀ x ∈ s.schedule, s.enabled x = false)) := by
  unfold State.chosen at h
  split at h
  · next m' rest h2 =>
    cases h
    obtain ⟨h3, a, b, h4, rfl, h5⟩ := firstEnabled_some _ _ _ _ h2
    exact ⟨h3, .inl ⟨a, b, h4, rfl, h5⟩⟩
  · next h2 =>
    split at h
    · next h3 => cases h; exact ⟨h3, .inr ⟨rfl, rfl, (firstEnabled_none _ _).mp h2⟩⟩
    · cases h

/-- A scheduled move that is enabled and stands first is chosen. -/
theorem chosen_head (s : State) (m : Move) (rest : List Move) (hs : s.schedule = m :: rest) (he : s.enabled m = true) :
    s.chosen = some (m, { s with schedule := rest }) := by
  simp [State.chosen, hs, firstEnabled, he]

/-- The offers and the takes of the host wait while the unit is busy. -/
theorem waitsInBusy_not_enabled (s : State) (cmd : Frame) (hp : s.phase = .busy cmd) (m : Move)
    (h : m.waitsInBusy = true) : s.enabled m = false := by
  cases m <;> simp_all [Move.waitsInBusy, State.enabled, State.cmdReady, State.rspValid]

/-! ## One clock edge -/

/-- What one clock edge can do, with the pins that make it. -/
theorem clockEdge_cases (s : State) (p : Pins) :
    (p.rst = true ∧ s.clockEdge p = s.resetUnit) ∨
    (p.rst = false ∧ s.phase = .idle ∧ p.cmdValid = true ∧ p.cmdLast = true ∧
      s.clockEdge p = s.accept (s.rx ++ [p.cmdData])) ∨
    (p.rst = false ∧ s.phase = .idle ∧ p.cmdValid = true ∧ p.cmdLast = false ∧
      s.clockEdge p = { s with rx := s.rx ++ [p.cmdData] }) ∨
    (p.rst = false ∧ ∃ rsp, s.phase = .resp rsp ∧ p.rspReady = true ∧ rsp.length ≤ s.taken + 1 ∧
      s.clockEdge p = s.deliver) ∨
    (p.rst = false ∧ ∃ rsp, s.phase = .resp rsp ∧ p.rspReady = true ∧ s.taken + 1 < rsp.length ∧
      s.clockEdge p = { s with taken := s.taken + 1 }) ∨
    (p.rst = false ∧ s.clockEdge p = s) := by
  unfold State.clockEdge State.cmdReady State.rspValid State.rspLast
  cases hr : p.rst
  · cases hp : s.phase with
    | idle => cases hv : p.cmdValid <;> cases hl : p.cmdLast <;> simp
    | busy c => simp
    | resp rsp =>
      cases hy : p.rspReady
      · simp
      · by_cases hl : rsp.length ≤ s.taken + 1
        · simp [hl]
        · simp [hl]; omega
  · simp

/-- A clock edge neither reads nor changes the schedule. -/
theorem clockEdge_withSchedule (s : State) (p : Pins) (l : List Move) :
    ({ s with schedule := l } : State).clockEdge p = { s.clockEdge p with schedule := l } := by
  unfold State.clockEdge
  cases hp : s.phase <;> cases p.rst <;> cases p.cmdValid <;> cases p.cmdLast <;> cases p.rspReady <;>
    simp [State.cmdReady, State.rspValid, State.rspLast, State.deliver, State.accept, State.resetUnit, hp]
  all_goals split_ifs <;> rfl

/-- No clock edge changes the parameter. -/
theorem clockEdge_cfg (s : State) (p : Pins) : (s.clockEdge p).cfg = s.cfg := by
  rcases clockEdge_cases s p with ⟨-, h⟩ | ⟨-, -, -, -, h⟩ | ⟨-, -, -, -, h⟩ | ⟨-, rsp, hp, -, -, h⟩ |
    ⟨-, rsp, hp, -, -, h⟩ | ⟨-, h⟩ <;> rw [h]
  · rfl
  · rfl
  · exact deliver_cfg s rsp hp

end Sys2Proof.Machine
end

