-- ==== Sys2Proof/Laws/PerInstr.lean ====
section
/-!
SUPPORT. The family `Shape`: the descriptor of every command passes the checks, and its frame has the length
`LEN(OP)` of R64.
-/

namespace Sys2Proof.Laws.Shape

/-- The descriptor of the command is well formed (R37, R61) and its frame has the declared length (R64). -/
def Statement (i : Instr) : Prop :=
  i.descriptor.wellFormed = true ∧ (encode i).length = i.command.length

theorem div512 (A B : U512) : Statement (.div512 A B) := by
  simp [Statement, encode, Descriptor.frame, Instr.descriptor, Instr.operandBytes, Instr.command, Command.length,
    Descriptor.wellFormed, Descriptor.countOk, Descriptor.lengthsOk, Command.format, Format.operandBytes]

theorem divup512 (A B : U512) : Statement (.divup512 A B) := by
  simp [Statement, encode, Descriptor.frame, Instr.descriptor, Instr.operandBytes, Instr.command, Command.length,
    Descriptor.wellFormed, Descriptor.countOk, Descriptor.lengthsOk, Command.format, Format.operandBytes]

theorem hugeuintadd (A B : U512) : Statement (.hugeuintadd A B) := by
  simp [Statement, encode, Descriptor.frame, Instr.descriptor, Instr.operandBytes, Instr.command, Command.length,
    Descriptor.wellFormed, Descriptor.countOk, Descriptor.lengthsOk, Command.format, Format.operandBytes]

theorem hugeuintsub (A B : U512) : Statement (.hugeuintsub A B) := by
  simp [Statement, encode, Descriptor.frame, Instr.descriptor, Instr.operandBytes, Instr.command, Command.length,
    Descriptor.wellFormed, Descriptor.countOk, Descriptor.lengthsOk, Command.format, Format.operandBytes]

theorem hugeuintmul256 (A B : U512) : Statement (.hugeuintmul256 A B) := by
  simp [Statement, encode, Descriptor.frame, Instr.descriptor, Instr.operandBytes, Instr.command, Command.length,
    Descriptor.wellFormed, Descriptor.countOk, Descriptor.lengthsOk, Command.format, Format.operandBytes]

theorem hugeuintmul (A B : U512) : Statement (.hugeuintmul A B) := by
  simp [Statement, encode, Descriptor.frame, Instr.descriptor, Instr.operandBytes, Instr.command, Command.length,
    Descriptor.wellFormed, Descriptor.countOk, Descriptor.lengthsOk, Command.format, Format.operandBytes]

theorem hugeuintdiv256 (A : U512) (B : U256) : Statement (.hugeuintdiv256 A B) := by
  simp [Statement, encode, Descriptor.frame, Instr.descriptor, Instr.operandBytes, Instr.command, Command.length,
    Descriptor.wellFormed, Descriptor.countOk, Descriptor.lengthsOk, Command.format, Format.operandBytes]

theorem hugeuintdiv (A B : U512) : Statement (.hugeuintdiv A B) := by
  simp [Statement, encode, Descriptor.frame, Instr.descriptor, Instr.operandBytes, Instr.command, Command.length,
    Descriptor.wellFormed, Descriptor.countOk, Descriptor.lengthsOk, Command.format, Format.operandBytes]

theorem hugeuintclz (A : U256) : Statement (.hugeuintclz A) := by
  simp [Statement, encode, Descriptor.frame, Instr.descriptor, Instr.operandBytes, Instr.command, Command.length,
    Descriptor.wellFormed, Descriptor.countOk, Descriptor.lengthsOk, Command.format, Format.operandBytes]

theorem hugeuintreciprocal (A : U256) : Statement (.hugeuintreciprocal A) := by
  simp [Statement, encode, Descriptor.frame, Instr.descriptor, Instr.operandBytes, Instr.command, Command.length,
    Descriptor.wellFormed, Descriptor.countOk, Descriptor.lengthsOk, Command.format, Format.operandBytes]

theorem hugeuintreciprocal2 (A : U512) : Statement (.hugeuintreciprocal2 A) := by
  simp [Statement, encode, Descriptor.frame, Instr.descriptor, Instr.operandBytes, Instr.command, Command.length,
    Descriptor.wellFormed, Descriptor.countOk, Descriptor.lengthsOk, Command.format, Format.operandBytes]

end Sys2Proof.Laws.Shape
end

