-- ==== Sys2Proof/Laws/Step.lean ====
section
/-!
SUPPORT. What a step can do, said once: every invariant is a case analysis of `step_cases`.
-/

namespace Sys2Proof.Machine

/-- The reply each meaning gives. -/
def replyOf (precheck : Bool) : Instr → Except Cause Reply
  | .div512 A B => replyDiv512 A B
  | .divup512 A B => replyDivup512 A B
  | .hugeuintadd A B => replyHugeuintadd A B
  | .hugeuintsub A B => replyHugeuintsub A B
  | .hugeuintmul256 A B => replyHugeuintmul256 A B
  | .hugeuintmul A B => replyHugeuintmul A B
  | .hugeuintdiv256 A B => replyHugeuintdiv256 A B
  | .hugeuintdiv A B => replyHugeuintdiv A B
  | .hugeuintclz A => replyHugeuintclz A
  | .hugeuintreciprocal A => replyRecip precheck A
  | .hugeuintreciprocal2 A => replyRecip precheck A

/-- Every command is answered, and nothing but the answer changes. -/
theorem exec_eq_answer (i : Instr) (s : State) : exec i s = s.answer (replyOf s.cfg.recipPrecheck i) := by
  cases i <;> rfl

/-- The response to a frame. -/
def responseTo (precheck : Bool) (cmd : Frame) : Frame :=
  match decode cmd with
  | .error c => faultFrame c
  | .ok i => answerFrame (replyOf precheck i)

theorem runFrame_eq (s : State) (cmd : Frame) :
    s.runFrame cmd = .next (s.answeredWith (responseTo s.cfg.recipPrecheck cmd)) := by
  unfold State.runFrame responseTo
  cases decode cmd with
  | error c => rfl
  | ok i => exact (exec_eq_answer i s).trans (answer_eq _ _)

/-- Everything a step that answers a next state can have done. `sch` is the schedule that is left. -/
theorem step_cases (s t : State) (h : step s = .next t) :
    ∃ sch, sch.Sublist s.schedule ∧
    ((∃ f, Move.accept f ∈ s.schedule ∧ s.phase = .idle ∧ s.rx = [] ∧ t = ({ s with schedule := sch } : State).accept f) ∨
     (∃ cmd, s.phase = .busy cmd ∧
       t = ({ s with schedule := sch } : State).answeredWith (responseTo s.cfg.recipPrecheck cmd)) ∨
     (∃ rsp, s.phase = .resp rsp ∧ Move.deliver ∈ s.schedule ∧ t = ({ s with schedule := sch } : State).deliver) ∨
     (Move.reset ∈ s.schedule ∧ t = ({ s with schedule := sch } : State).resetUnit) ∨
     (∃ p, Move.edge p ∈ s.schedule ∧ t = ({ s with schedule := sch } : State).clockEdge p)) := by
  unfold step at h
  cases hc : s.chosen with
  | none => rw [hc] at h; cases h
  | some r =>
    obtain ⟨m, s'⟩ := r
    rw [hc] at h
    obtain ⟨he, hh⟩ := chosen_cases s m s' hc
    have hm : m ≠ .execute → m ∈ s.schedule := by
      rcases hh with ⟨a, b, h1, -, -⟩ | ⟨h2, -, -⟩
      · exact fun _ => by simp [h1]
      · exact fun hm => absurd h2 hm
    obtain ⟨sch, hsub, rfl⟩ : ∃ sch, sch.Sublist s.schedule ∧ s' = { s with schedule := sch } := by
      rcases hh with ⟨a, b, h1, rfl, -⟩ | ⟨-, rfl, -⟩
      · exact ⟨a ++ b, by simp [h1], rfl⟩
      · exact ⟨s'.schedule, List.Sublist.refl _, rfl⟩
    refine ⟨sch, hsub, ?_⟩
    cases m with
    | accept f =>
      cases h
      refine .inl ⟨f, hm (by simp), ?_, ?_, rfl⟩ <;> revert he <;> cases hp : s.phase <;> simp [State.enabled, State.cmdReady, hp]
    | execute =>
      cases hp : s.phase <;> simp [State.enabled, hp] at he
      simp only [State.execute, hp, runFrame_eq] at h
      cases h
      exact .inr (.inl ⟨_, rfl, rfl⟩)
    | deliver =>
      cases hp : s.phase <;> simp [State.enabled, State.rspValid, hp] at he
      cases h
      exact .inr (.inr (.inl ⟨_, rfl, hm (by simp), by rw [hp]⟩))
    | reset => cases h; exact .inr (.inr (.inr (.inl ⟨hm (by simp), rfl⟩)))
    | edge p => cases h; exact .inr (.inr (.inr (.inr ⟨p, hm (by simp), rfl⟩)))

end Sys2Proof.Machine
end

