-- ==== Sys2Proof/Tests/Slice0.lean ====
section
/-!
SUPPORT. The model's own tests: ill-formed descriptors, written frames decoded, vectors of spec/95_test_vectors.md
run as one step, and for every obligation with hypotheses a witness that meets them, at the ends of their ranges.
-/

namespace Sys2Proof.Tests

-- The many small kernel evaluations below are checked one after another.
set_option Elab.async false

open Sys2Proof Sys2Proof.Machine

/-! ## Helpers -/

/-- What a frame decodes to, in a form that can be compared. -/
def decoded (cmd : Frame) : Option Instr :=
  match decode cmd with
  | .ok i => some i
  | .error _ => none

/-- The fault a frame decodes to. -/
def decodeFault (cmd : Frame) : Option Cause :=
  match decode cmd with
  | .ok _ => none
  | .error c => some c

/-- A unit of parameter `precheck` that holds the frame `cmd`, with nothing scheduled. -/
def holding (precheck : Bool) (cmd : Frame) : State := { State.resetWith ⟨precheck⟩ with phase := .busy cmd }

/-- One step from `holding` answers `rsp` and changes nothing else. -/
def answers (precheck : Bool) (cmd rsp : Frame) : Bool :=
  match step (holding precheck cmd) with
  | .next t => t == (holding precheck cmd).answeredWith rsp
  | .fault _ => false
  | .refused _ => false

/-- Pins at one edge, `rst` low. -/
def pins (cmdValid : Bool) (cmdData : Byte) (cmdLast rspReady : Bool) : Pins :=
  { rst := false, cmdValid := cmdValid, cmdData := cmdData, cmdLast := cmdLast, rspReady := rspReady }

/-! ## The checks of WellFormed -/

theorem test_wellFormed_accepts :
    (Descriptor.mk .hugeuintdiv256 [List.replicate 64 0x00#8, List.replicate 32 0xFF#8]).wellFormed = true := by decide

/-- One operand where the format has two. -/
theorem test_wellFormed_refuses_operand_count :
    (Descriptor.mk .hugeuintadd [List.replicate 64 0x00#8]).wellFormed = false := by decide

/-- Two operands where the format has one. -/
theorem test_wellFormed_refuses_extra_operand :
    (Descriptor.mk .hugeuintclz [List.replicate 32 0x00#8, List.replicate 32 0x00#8]).wellFormed = false := by decide

/-- 64 bytes where `hugeuintdiv256` has 32 (R37). -/
theorem test_wellFormed_refuses_operand_length :
    (Descriptor.mk .hugeuintdiv256 [List.replicate 64 0x00#8, List.replicate 64 0xFF#8]).wellFormed = false := by
  decide

/-! ## Decoding: a written frame of every command (R60 to R66) -/

theorem test_decode_div512 :
    decoded (
      [0x01#8] ++ List.replicate 31 0x00#8 ++ [0x01#8] ++ List.replicate 31 0x00#8 ++ [0x02#8] ++ List.replicate 31
        0x00#8 ++ [0x03#8] ++ List.replicate 31 0x00#8 ++ [0x04#8]) =
      some (.div512 (BitVec.ofNat 512 (1 * 2 ^ 256 + 2)) (BitVec.ofNat 512 (3 * 2 ^ 256 + 4))) := by decide +kernel

theorem test_decode_divup512 :
    decoded (
      [0x02#8] ++ List.replicate 31 0x00#8 ++ [0x01#8] ++ List.replicate 31 0x00#8 ++ [0x02#8] ++ List.replicate 31
        0x00#8 ++ [0x03#8] ++ List.replicate 31 0x00#8 ++ [0x04#8]) =
      some (.divup512 (BitVec.ofNat 512 (1 * 2 ^ 256 + 2)) (BitVec.ofNat 512 (3 * 2 ^ 256 + 4))) := by decide +kernel

theorem test_decode_hugeuintadd :
    decoded (
      [0x03#8] ++ List.replicate 31 0x00#8 ++ [0x01#8] ++ List.replicate 31 0x00#8 ++ [0x02#8] ++ List.replicate 31
        0x00#8 ++ [0x03#8] ++ List.replicate 31 0x00#8 ++ [0x04#8]) =
      some (.hugeuintadd (BitVec.ofNat 512 (1 * 2 ^ 256 + 2)) (BitVec.ofNat 512 (3 * 2 ^ 256 + 4))) := by decide +kernel

theorem test_decode_hugeuintsub :
    decoded (
      [0x04#8] ++ List.replicate 31 0x00#8 ++ [0x01#8] ++ List.replicate 31 0x00#8 ++ [0x02#8] ++ List.replicate 31
        0x00#8 ++ [0x03#8] ++ List.replicate 31 0x00#8 ++ [0x04#8]) =
      some (.hugeuintsub (BitVec.ofNat 512 (1 * 2 ^ 256 + 2)) (BitVec.ofNat 512 (3 * 2 ^ 256 + 4))) := by decide +kernel

theorem test_decode_hugeuintmul256 :
    decoded (
      [0x05#8] ++ List.replicate 31 0x00#8 ++ [0x01#8] ++ List.replicate 31 0x00#8 ++ [0x02#8] ++ List.replicate 31
        0x00#8 ++ [0x03#8] ++ List.replicate 31 0x00#8 ++ [0x04#8]) =
      some (.hugeuintmul256 (BitVec.ofNat 512 (1 * 2 ^ 256 + 2)) (BitVec.ofNat 512 (3 * 2 ^ 256 + 4))) := by decide +kernel

theorem test_decode_hugeuintmul :
    decoded (
      [0x06#8] ++ List.replicate 31 0x00#8 ++ [0x01#8] ++ List.replicate 31 0x00#8 ++ [0x02#8] ++ List.replicate 31
        0x00#8 ++ [0x03#8] ++ List.replicate 31 0x00#8 ++ [0x04#8]) =
      some (.hugeuintmul (BitVec.ofNat 512 (1 * 2 ^ 256 + 2)) (BitVec.ofNat 512 (3 * 2 ^ 256 + 4))) := by decide +kernel

theorem test_decode_hugeuintdiv256 :
    decoded (
      [0x07#8] ++ List.replicate 31 0x00#8 ++ [0x01#8] ++ List.replicate 31 0x00#8 ++ [0x02#8] ++ [0x03#8] ++
        List.replicate 30 0x00#8 ++ [0x04#8]) =
      some (.hugeuintdiv256 (BitVec.ofNat 512 (1 * 2 ^ 256 + 2)) (BitVec.ofNat 256 (3 * 2 ^ 248 + 4))) := by decide +kernel

theorem test_decode_hugeuintdiv :
    decoded (
      [0x08#8] ++ List.replicate 31 0x00#8 ++ [0x01#8] ++ List.replicate 31 0x00#8 ++ [0x02#8] ++ List.replicate 31
        0x00#8 ++ [0x03#8] ++ List.replicate 31 0x00#8 ++ [0x04#8]) =
      some (.hugeuintdiv (BitVec.ofNat 512 (1 * 2 ^ 256 + 2)) (BitVec.ofNat 512 (3 * 2 ^ 256 + 4))) := by decide +kernel

theorem test_decode_hugeuintclz :
    decoded (
      [0x09#8] ++ [0x05#8] ++ List.replicate 30 0x00#8 ++ [0x06#8]) =
      some (.hugeuintclz (BitVec.ofNat 256 (5 * 2 ^ 248 + 6))) := by decide +kernel

theorem test_decode_hugeuintreciprocal :
    decoded (
      [0x0A#8] ++ [0x05#8] ++ List.replicate 30 0x00#8 ++ [0x06#8]) =
      some (.hugeuintreciprocal (BitVec.ofNat 256 (5 * 2 ^ 248 + 6))) := by decide +kernel

theorem test_decode_hugeuintreciprocal2 :
    decoded (
      [0x0B#8] ++ List.replicate 31 0x00#8 ++ [0x01#8] ++ List.replicate 31 0x00#8 ++ [0x02#8]) =
      some (.hugeuintreciprocal2 (BitVec.ofNat 512 (1 * 2 ^ 256 + 2))) := by decide +kernel

/-! ## Decoding: the faults (R65; X vectors of 95_test_vectors.md section 2.2) -/

theorem test_decode_fault_X1 : decodeFault ([]) =
    some .malformedInput := by decide +kernel

theorem test_decode_fault_X2 : decodeFault ([0x00#8]) =
    some .illegalCommand := by decide +kernel

theorem test_decode_fault_X4 : decodeFault ([0x0C#8]) =
    some .illegalCommand := by decide +kernel

theorem test_decode_fault_X6 : decodeFault ([0x03#8]) =
    some .malformedInput := by decide +kernel

theorem test_decode_fault_X9 : decodeFault ([0x07#8] ++ List.replicate 128 0x00#8) =
    some .malformedInput := by decide +kernel

theorem test_decode_fault_X10 : decodeFault ([0x09#8] ++ List.replicate 64 0x00#8) =
    some .malformedInput := by decide +kernel

/-- A frame one byte too long for its opcode, and one too short (R172). -/
theorem test_decode_fault_lengths :
    decodeFault (0x09#8 :: List.replicate 33 0x00#8) = some .malformedInput ∧
    decodeFault (0x09#8 :: List.replicate 31 0x00#8) = some .malformedInput := by decide +kernel

/-- The rows of the opcode table select different bytes, and 11 of the 256. -/
theorem test_opcode_rows_disjoint :
    opcodeTable.Pairwise (fun r q => r.pattern &&& q.mask ≠ q.pattern) ∧
    ((List.range 256).filter fun n => (Command.ofOpcode (BitVec.ofNat 8 n)).isSome).length = 11 := by decide +kernel

/-! ## The commands: vectors of 95_test_vectors.md, each as one step -/

/-- F1. -/
theorem test_div512_F1 : answers false
    ([0x01#8] ++ List.replicate 64 0xFF#8 ++ List.replicate 63 0x00#8 ++ [0x02#8])
    ([0x00#8, 0x00#8] ++ List.replicate 32 0xFF#8 ++ [0x7F#8] ++ List.replicate 31 0xFF#8) = true := by
  decide +kernel

/-- V43. -/
theorem test_div512_V43 : answers false
    ([0x01#8] ++ List.replicate 63 0x00#8 ++ [0x05#8] ++ List.replicate 64 0x00#8)
    ([0x03#8, 0x00#8]) = true := by
  decide +kernel

/-- F2. -/
theorem test_divup512_F2 : answers false
    ([0x02#8] ++ List.replicate 64 0xFF#8 ++ List.replicate 63 0x00#8 ++ [0x02#8])
    (List.replicate 34 0x00#8 ++ [0x80#8] ++ List.replicate 31 0x00#8) = true := by
  decide +kernel

/-- V44. -/
theorem test_divup512_V44 : answers false
    ([0x02#8] ++ List.replicate 63 0x00#8 ++ [0x05#8] ++ List.replicate 64 0x00#8)
    ([0x03#8, 0x00#8]) = true := by
  decide +kernel

/-- F3. -/
theorem test_hugeuintadd_F3 : answers false
    ([0x03#8] ++ List.replicate 128 0xFF#8)
    ([0x00#8, 0x01#8] ++ List.replicate 31 0xFF#8 ++ [0xFE#8] ++ List.replicate 32 0xFF#8) = true := by
  decide +kernel

/-- V10. -/
theorem test_hugeuintadd_V10 : answers false
    ([0x03#8] ++ List.replicate 64 0xFF#8 ++ List.replicate 64 0x00#8)
    ([0x00#8, 0x00#8] ++ List.replicate 64 0xFF#8) = true := by
  decide +kernel

/-- F4. -/
theorem test_hugeuintsub_F4 : answers false
    ([0x04#8] ++ List.replicate 63 0x00#8 ++ [0x03#8] ++ List.replicate 64 0xFF#8)
    ([0x00#8, 0x01#8] ++ List.replicate 31 0x00#8 ++ [0x04#8] ++ List.replicate 32 0x00#8) = true := by
  decide +kernel

/-- V18. -/
theorem test_hugeuintsub_V18 : answers false
    ([0x04#8] ++ List.replicate 128 0xFF#8)
    (List.replicate 66 0x00#8) = true := by
  decide +kernel

/-- F5. -/
theorem test_hugeuintmul256_F5 : answers false
    ([0x05#8] ++ List.replicate 32 0x00#8 ++ List.replicate 32 0xFF#8 ++ List.replicate 32 0x00#8 ++ List.replicate
      32 0xFF#8)
    (List.replicate 33 0x00#8 ++ [0x01#8] ++ List.replicate 31 0xFF#8 ++ [0xFE#8]) = true := by
  decide +kernel

/-- V25. -/
theorem test_hugeuintmul256_V25 : answers false
    ([0x05#8] ++ List.replicate 31 0x00#8 ++ [0x01#8] ++ List.replicate 95 0x00#8 ++ [0x01#8])
    ([0x04#8, 0x00#8]) = true := by
  decide +kernel

/-- F6. -/
theorem test_hugeuintmul_F6 : answers false
    ([0x06#8] ++ List.replicate 31 0x00#8 ++ [0x01#8] ++ List.replicate 31 0x00#8 ++ [0x03#8] ++ List.replicate 32
      0x00#8 ++ [0x80#8] ++ List.replicate 30 0x00#8 ++ [0x05#8])
    ([0x00#8, 0x00#8, 0x80#8] ++ List.replicate 30 0x00#8 ++ [0x0F#8, 0x80#8] ++ List.replicate 30 0x00#8 ++
      [0x06#8]) = true := by
  decide +kernel

/-- V35. -/
theorem test_hugeuintmul_V35 : answers false
    ([0x06#8] ++ List.replicate 26 0x00#8 ++ [0x10#8] ++ List.replicate 36 0x00#8 ++ [0x07#8] ++ List.replicate 38
      0x00#8 ++ [0x01#8] ++ List.replicate 24 0x00#8 ++ [0x09#8])
    (List.replicate 8 0x00#8 ++ [0x07#8] ++ List.replicate 24 0x00#8 ++ [0x3F#8, 0x00#8, 0x10#8] ++ List.replicate 24
      0x00#8 ++ [0x90#8] ++ List.replicate 5 0x00#8) = true := by
  decide +kernel

/-- F7. -/
theorem test_hugeuintdiv256_F7 : answers false
    ([0x07#8] ++ List.replicate 31 0xFF#8 ++ [0xFE#8] ++ List.replicate 64 0xFF#8)
    ([0x00#8, 0x00#8] ++ List.replicate 32 0xFF#8) = true := by
  decide +kernel

/-- V60. -/
theorem test_hugeuintdiv256_V60 : answers false
    ([0x07#8] ++ List.replicate 31 0x00#8 ++ [0x01#8] ++ List.replicate 63 0x00#8 ++ [0x01#8])
    ([0x04#8, 0x00#8]) = true := by
  decide +kernel

/-- F8. -/
theorem test_hugeuintdiv_F8 : answers false
    ([0x08#8, 0x80#8] ++ List.replicate 94 0x00#8 ++ [0x01#8] ++ List.replicate 31 0x00#8 ++ [0x01#8])
    ([0x00#8, 0x00#8, 0x7F#8] ++ List.replicate 31 0xFF#8) = true := by
  decide +kernel

/-- V68. -/
theorem test_hugeuintdiv_V68 : answers false
    ([0x08#8] ++ List.replicate 64 0xFF#8 ++ List.replicate 32 0x00#8 ++ List.replicate 32 0xFF#8)
    ([0x04#8, 0x00#8]) = true := by
  decide +kernel

/-- F9. -/
theorem test_hugeuintclz_F9 : answers false
    ([0x09#8] ++ List.replicate 6 0x00#8 ++ [0x01#8] ++ List.replicate 23 0x00#8 ++ [0x30#8, 0x39#8])
    (List.replicate 33 0x00#8 ++ [0x37#8]) = true := by
  decide +kernel

/-- V1. -/
theorem test_hugeuintclz_V1 : answers false
    ([0x09#8] ++ List.replicate 32 0x00#8)
    (List.replicate 32 0x00#8 ++ [0x01#8, 0x00#8]) = true := by
  decide +kernel

/-- F10. -/
theorem test_hugeuintreciprocal_F10 : answers false
    ([0x0A#8, 0xDE#8, 0xAD#8, 0xBE#8, 0xEF#8] ++ List.replicate 28 0x00#8)
    ([0x00#8, 0x00#8, 0x26#8, 0x4E#8, 0xB5#8, 0x65#8, 0xBF#8, 0x92#8, 0x12#8, 0x94#8, 0xF6#8, 0xF8#8, 0x27#8, 0x21#8,
      0x39#8, 0x76#8, 0xBF#8, 0x85#8, 0x86#8, 0xA3#8, 0xDF#8, 0x55#8, 0x0C#8, 0x6E#8, 0xAC#8, 0x7D#8, 0x55#8, 0x49#8,
      0x01#8, 0x90#8, 0x4D#8, 0x73#8, 0x6E#8, 0x76#8]) = true := by
  decide +kernel

/-- V93. -/
theorem test_hugeuintreciprocal_V93 : answers false
    ([0x0A#8, 0x7F#8] ++ List.replicate 31 0xFF#8)
    ([0x04#8, 0x00#8]) = true := by
  decide +kernel

/-- F11. -/
theorem test_hugeuintreciprocal2_F11 : answers false
    ([0x0B#8, 0x80#8] ++ List.replicate 30 0x00#8 ++ [0x01#8] ++ List.replicate 32 0x00#8)
    ([0x00#8, 0x00#8] ++ List.replicate 31 0xFF#8 ++ [0xFC#8]) = true := by
  decide +kernel

/-- V108 (RECIP_PRECHECK = true). -/
theorem test_hugeuintreciprocal2_V108 : answers true
    ([0x0B#8, 0x7F#8] ++ List.replicate 63 0xFF#8)
    ([0x05#8, 0x00#8]) = true := by
  decide +kernel

/-! ## The step and the channels -/

/-- Reset while a byte-wise frame is being collected drops its bytes (R200); the next frame starts at offset 0. -/
theorem test_reset_drops_collected_bytes :
    (State.reset.afterEdges [pins true 0x09#8 false false, { pins false 0x00#8 false false with rst := true },
      pins true 0x0C#8 true false]).phase = .busy [0x0C#8] := by decide

/-- A response of two bytes taken with one stall (R80). -/
theorem test_response_bytes :
    ({ State.reset with phase := .resp [0x02#8, 0x00#8] } : State).bytesTaken
      [pins false 0x00#8 false true, pins false 0x00#8 false false, pins false 0x00#8 false true] =
      [0x02#8, 0x00#8] := by decide

/-- A word of the opcode table, its operand bytes 0, runs as the first instruction after reset: `hugeuintclz 0` is
256 (V1). -/
theorem test_withFetchWord_runs :
    (match step (State.reset.withFetchWord 8 0x09) with
      | .next t => t.phase == .resp (List.replicate 32 0x00#8 ++ [0x01#8, 0x00#8])
      | .fault _ => false
      | .refused _ => false) = true := by decide +kernel

/-- Bit 0 of the table's numbering is the least significant bit of byte 0: byte 1 is bits 15 to 8. -/
theorem test_decodeTableWord_numbering :
    decodeTableWord 264 0x8009 = some (.hugeuintclz (BitVec.ofNat 256 (2 ^ 255))) := by decide +kernel

/-- An odd number of digits, and a mnemonic that names no command, do not assemble (R90). -/
theorem test_assembleText_refuses :
    assembleText (mnemonic .hugeuintclz ++ ' ' :: List.replicate 63 '0') = none ∧
    assembleText ('d' :: mnemonic .hugeuintclz ++ ' ' :: List.replicate 64 '0') = none := by decide +kernel

/-- A line of command text (R90). -/
theorem test_assembleText :
    assembleText (mnemonic .hugeuintclz ++ ' ' :: '0' :: 'x' :: (List.replicate 62 '0' ++ ['a', 'F'])) =
      some (0x09#8 :: (List.replicate 31 0x00#8 ++ [0xAF#8])) := by decide +kernel

/-! ## Witnesses: encoding and values -/

/-- A whole frame of `hugeuintclz` (V1). -/
def clzFrame : Frame := 0x09#8 :: List.replicate 32 0x00#8

theorem decode_clzFrame : decode clzFrame = .ok (.hugeuintclz 0) := rfl

theorem witness_EncodeOfDecodeIsTheFrame : ∃ cmd i, decode cmd = .ok i := ⟨clzFrame, _, decode_clzFrame⟩

theorem witness_OperandsAreTheBigEndianValuesOfTheirSlices :
    (List.replicate 64 0xFF#8 : Frame).length = 64 ∧ (List.replicate 63 0x00#8 ++ [0x01#8] : Frame).length = 64 ∧
    (List.replicate 32 0x80#8 : Frame).length = 32 := by decide

theorem witness_CanonicalBytesAndValuesAreInverse :
    ∀ W : Nat, W ∈ [256, 512, 768] →
      (W = 256 ∨ W = 512 ∨ W = 768) ∧ 0 < W / 8 ∧ W / 8 - 1 < W / 8 ∧
      (List.replicate (W / 8) 0xFF#8 : Frame).length = W / 8 := by decide

theorem witness_OperandBytesAreLimbsMostSignificantFirst :
    (List.replicate 32 0xFF#8 : Frame).length = 32 ∧ (List.replicate 64 0xFF#8 : Frame).length = 64 ∧
    (List.replicate 96 0xFF#8 : Frame).length = 96 := by decide

theorem witness_NarrowingFaultsOrKeepsTheNumber :
    2 ^ 256 ≤ (BitVec.ofNat 512 (2 ^ 256)).toNat ∧ (BitVec.ofNat 512 (2 ^ 256 - 1)).toNat < 2 ^ 256 ∧
    2 ^ 256 ≤ (BitVec.ofNat 768 (2 ^ 256)).toNat ∧ (BitVec.ofNat 768 (2 ^ 256 - 1)).toNat < 2 ^ 256 := by
  decide +kernel

/-! ## Witnesses: the commands -/

/-- `2^n` at width 512. -/
def p512 (n : Nat) : U512 := BitVec.ofNat 512 (2 ^ n)

/-- The two clauses meet at `A = B` and part at `B = A + 1`. -/
theorem witness_HugeuintsubAnswersTheDifferenceModulo512 :
    (p512 511).toNat ≤ (p512 511).toNat ∧ (p512 511).toNat < (p512 511 + 1#512).toNat := by decide +kernel

theorem witness_Hugeuintmul256AnswersTheExactProduct :
    ((p512 256 - 1#512).toNat < 2 ^ 256 ∧ (p512 256 - 1#512).toNat < 2 ^ 256) ∧
    (2 ^ 256 ≤ (p512 256).toNat ∨ 2 ^ 256 ≤ (0#512).toNat) ∧
    (2 ^ 256 ≤ (0#512).toNat ∨ 2 ^ 256 ≤ (p512 256).toNat) := by decide +kernel

theorem witness_Div512AnswersTheFloorQuotient : (1#512).toNat ≠ 0 ∧ (0#512).toNat = 0 := by decide +kernel

/-- An exact quotient, an inexact one next to it, and a zero divisor. -/
theorem witness_Divup512AnswersTheCeiling :
    ((2#512).toNat ≠ 0 ∧ (6#512).toNat % (2#512).toNat = 0) ∧
    ((2#512).toNat ≠ 0 ∧ (BitVec.allOnes 512).toNat % (2#512).toNat ≠ 0) ∧ (0#512).toNat = 0 := by decide +kernel

/-- The quotient `2^256` and the quotient `2^256 - 1`. -/
theorem witness_Hugeuintdiv256AnswersTheNarrowedQuotient :
    (0#256).toNat = 0 ∧
    ((2#256).toNat ≠ 0 ∧ 2 ^ 256 ≤ (p512 257).toNat / (2#256).toNat) ∧
    ((2#256).toNat ≠ 0 ∧ (p512 257 - 1#512).toNat / (2#256).toNat < 2 ^ 256) := by decide +kernel

theorem witness_HugeuintdivAnswersTheNarrowedQuotient :
    (0#512).toNat = 0 ∧
    ((2#512).toNat ≠ 0 ∧ 2 ^ 256 ≤ (p512 257).toNat / (2#512).toNat) ∧
    ((2#512).toNat ≠ 0 ∧ (p512 257 - 1#512).toNat / (2#512).toNat < 2 ^ 256) := by decide +kernel

/-- Zero, the lowest bit and the highest bit. -/
theorem witness_HugeuintclzAnswersTheLeadingZeroCount :
    (0#256).toNat = 0 ∧ (2 ^ 0 ≤ (1#256).toNat ∧ (1#256).toNat < 2 ^ (0 + 1)) ∧
    (2 ^ 255 ≤ (BitVec.allOnes 256).toNat ∧ (BitVec.allOnes 256).toNat < 2 ^ (255 + 1)) := by decide +kernel

/-- Zero, both ends of the range below the documented one under both settings, and its lowest member. -/
theorem witness_HugeuintreciprocalAnswersTheSeed :
    (0#256).toNat = 0 ∧
    (0 < (1#256).toNat ∧ (1#256).toNat < 2 ^ 255 ∧ (State.resetWith ⟨true⟩).cfg.recipPrecheck = true) ∧
    (0 < (BitVec.ofNat 256 (2 ^ 255 - 1)).toNat ∧ (BitVec.ofNat 256 (2 ^ 255 - 1)).toNat < 2 ^ 255 ∧
      State.reset.cfg.recipPrecheck = false) ∧
    2 ^ 255 ≤ (BitVec.ofNat 256 (2 ^ 255)).toNat := by decide +kernel

theorem witness_Hugeuintreciprocal2AnswersTheSeed :
    (0#512).toNat = 0 ∧
    (0 < (1#512).toNat ∧ (1#512).toNat < 2 ^ 511 ∧ (State.resetWith ⟨true⟩).cfg.recipPrecheck = true) ∧
    (0 < (p512 511 - 1#512).toNat ∧ (p512 511 - 1#512).toNat < 2 ^ 511 ∧ State.reset.cfg.recipPrecheck = false) ∧
    2 ^ 511 ≤ (p512 511).toNat := by decide +kernel

theorem witness_DivisionIdentityHoldsOnTheCommands : (BitVec.allOnes 512).toNat ≠ 0 := by decide +kernel

theorem witness_CeilingIsTheLeastMultiplierReachingTheNumerator :
    ((1#512).toNat ≠ 0 ∧ (7#512).toNat % (1#512).toNat = 0) ∧
    ((2#512).toNat ≠ 0 ∧ (7#512).toNat % (2#512).toNat ≠ 0) := by decide +kernel

theorem witness_ReciprocalBounds :
    2 ^ 255 ≤ (BitVec.ofNat 256 (2 ^ 255)).toNat ∧ 2 ^ 511 ≤ (p512 511).toNat := by decide +kernel

/-- Both ends of each clause: the quotient less `2^256` is `2^256` for the divisor `2^255 - 1`, below it for
`2^255`. -/
theorem witness_RecipIsOneDivisionLess2To256 :
    ((0#256).toNat = 0 ∧ (0#512).toNat = 0) ∧
    ((BitVec.ofNat 256 (2 ^ 255 - 1)).toNat ≠ 0 ∧
      2 ^ 256 ≤ (2 ^ 512 - 1) / (BitVec.ofNat 256 (2 ^ 255 - 1)).toNat - 2 ^ 256) ∧
    ((BitVec.ofNat 256 (2 ^ 255)).toNat ≠ 0 ∧
      (2 ^ 512 - 1) / (BitVec.ofNat 256 (2 ^ 255)).toNat - 2 ^ 256 < 2 ^ 256) ∧
    ((p512 511 - 1#512).toNat ≠ 0 ∧ 2 ^ 256 ≤ (2 ^ 768 - 1) / (p512 511 - 1#512).toNat - 2 ^ 256) ∧
    ((p512 511).toNat ≠ 0 ∧ (2 ^ 768 - 1) / (p512 511).toNat - 2 ^ 256 < 2 ^ 256) := by decide +kernel

theorem witness_ReciprocalStandsForTheLargestMultiplier :
    2 ^ 255 ≤ (BitVec.ofNat 256 (2 ^ 255)).toNat ∧ 2 ^ 511 ≤ (BitVec.allOnes 512).toNat := by decide +kernel

theorem witness_RestoringDivisionGivesQuotientAndRemainder :
    (2 ^ 768 - 1 < 2 ^ 768 ∧ 0 < 1) ∧ (0 < 2 ^ 0 ∧ 0 < 5) := by decide +kernel

/-- The three widths, with a carry out and a borrow out of the highest limb and without. -/
theorem witness_CarryAndBorrowChainsGiveTheResults :
    ∀ W : Nat, W ∈ [256, 512, 768] →
      (W = 256 ∨ W = 512 ∨ W = 768) ∧
      2 ^ W ≤ (BitVec.allOnes W).toNat + (BitVec.ofNat W 1).toNat ∧
      ¬ 2 ^ W ≤ (BitVec.allOnes W).toNat + (BitVec.ofNat W 0).toNat ∧
      (BitVec.ofNat W 0).toNat < (BitVec.ofNat W 1).toNat ∧
      ¬ (BitVec.ofNat W 1).toNat < (BitVec.ofNat W 1).toNat := by decide +kernel

/-- A carry through two limbs into the third, and a borrow back (by hand from R102). -/
theorem test_chains_three_limbs :
    carryChainW (BitVec.ofNat 768 (2 ^ 512 - 1)) 1#768 = (BitVec.ofNat 768 (2 ^ 512), 0) ∧
    borrowChainW (BitVec.ofNat 768 (2 ^ 512)) 1#768 = (BitVec.ofNat 768 (2 ^ 512 - 1), 0) ∧
    borrowChainW 0#768 1#768 = (BitVec.allOnes 768, 1) := by decide +kernel

/-! ## Witnesses: decode faults and the step -/

theorem witness_ReservedOpcodeIsAnsweredIllegalCommand :
    ((0x00#8).toNat = 0 ∨ 0x0C ≤ (0x00#8).toNat) ∧ ((0x0C#8).toNat = 0 ∨ 0x0C ≤ (0x0C#8).toNat) ∧
    ((0xFF#8).toNat = 0 ∨ 0x0C ≤ (0xFF#8).toNat) := by decide

/-- The hypothesis of the second clause of `WrongLengthIsAnsweredMalformedInput`. -/
def wrongLength (op : Byte) (operands : Frame) : Bool :=
  decide ((1 ≤ op.toNat ∧ op.toNat ≤ 6 ∨ op.toNat = 8) ∧ operands.length + 1 ≠ 129 ∨
    op.toNat = 7 ∧ operands.length + 1 ≠ 97 ∨ (op.toNat = 9 ∨ op.toNat = 10) ∧ operands.length + 1 ≠ 33 ∨
    op.toNat = 11 ∧ operands.length + 1 ≠ 65)

/-- One byte short and one byte long for each frame shape, and an opcode alone. -/
theorem witness_WrongLengthIsAnsweredMalformedInput :
    wrongLength 0x01#8 (List.replicate 127 0x00#8) = true ∧ wrongLength 0x06#8 (List.replicate 129 0x00#8) = true ∧
    wrongLength 0x08#8 [] = true ∧
    wrongLength 0x07#8 (List.replicate 95 0x00#8) = true ∧ wrongLength 0x07#8 (List.replicate 97 0x00#8) = true ∧
    wrongLength 0x09#8 (List.replicate 31 0x00#8) = true ∧ wrongLength 0x0A#8 (List.replicate 33 0x00#8) = true ∧
    wrongLength 0x0B#8 (List.replicate 63 0x00#8) = true ∧ wrongLength 0x0B#8 (List.replicate 65 0x00#8) = true := by
  decide +kernel

/-- A busy unit with offers waiting, and the same with its `execute` scheduled behind them. -/
theorem witness_StepRunsTheDecodedCommand :
    ∃ (s r : State) (cmd : Frame) (i : Instr) (waiting rest : List Move),
      s.phase = .busy cmd ∧ r.phase = .busy cmd ∧ decode cmd = .ok i ∧ waiting.all Move.waitsInBusy = true ∧
      waiting ≠ [] ∧ s.schedule = waiting ∧ r.schedule = waiting ++ .execute :: rest :=
  ⟨{ holding false clzFrame with schedule := [.accept [], .deliver] },
    { holding false clzFrame with schedule := [.accept [], .deliver, .execute, .reset] },
    clzFrame, _, [.accept [], .deliver], [.reset], rfl, rfl, decode_clzFrame, rfl, by simp, rfl, rfl⟩

theorem witness_StepAnswersADecodeFault :
    ∃ (s r : State) (cmd cmd' : Frame) (waiting rest : List Move),
      s.phase = .busy cmd ∧ r.phase = .busy cmd' ∧ waiting.all Move.waitsInBusy = true ∧
      s.schedule = waiting ∧ r.schedule = waiting ++ .execute :: rest ∧
      decode cmd = .error .malformedInput ∧ decode cmd' = .error .illegalCommand :=
  ⟨{ holding false [] with schedule := [.accept []] }, { holding false [0x0C#8] with schedule := [.accept [], .execute] },
    [], [0x0C#8], [.accept []], [], rfl, rfl, rfl, rfl, rfl, rfl, rfl⟩

/-- The other two pairings of fault and schedule. -/
theorem witness_StepAnswersADecodeFault_crossed :
    ∃ (s r : State) (cmd cmd' : Frame) (waiting rest : List Move),
      s.phase = .busy cmd ∧ r.phase = .busy cmd' ∧ waiting.all Move.waitsInBusy = true ∧
      s.schedule = waiting ∧ r.schedule = waiting ++ .execute :: rest ∧
      decode cmd = .error .illegalCommand ∧ decode cmd' = .error .malformedInput :=
  ⟨{ holding false [0xFF#8] with schedule := [.deliver] }, { holding true [] with schedule := [.deliver, .execute] },
    [0xFF#8], [], [.deliver], [], rfl, rfl, rfl, rfl, rfl, rfl, rfl⟩

theorem witness_HostStepsDoWhatTheirRowsSay :
    (∃ (s : State) (f : Frame) (rest : List Move), s.phase = .idle ∧ s.rx = [] ∧ s.schedule = .accept f :: rest) ∧
    (∃ (s : State) (rsp : Frame) (rest : List Move), s.phase = .resp rsp ∧ s.schedule = .deliver :: rest) ∧
    (∃ (s : State) (cmd : Frame) (rest : List Move), s.phase = .busy cmd ∧ s.schedule = .reset :: rest) ∧
    (∃ (s : State) (p : Pins) (rest : List Move), s.schedule = .edge p :: rest ∧ p.cmdValid = true) :=
  ⟨⟨{ State.reset with schedule := [.accept []] }, [], [], rfl, rfl, rfl⟩,
    ⟨{ State.reset with phase := .resp [0x03#8, 0x00#8], schedule := [.deliver] }, _, [], rfl, rfl⟩,
    ⟨{ holding false clzFrame with schedule := [.reset] }, _, [], rfl, rfl⟩,
    ⟨{ State.reset with schedule := [.edge (pins true 0x09#8 false false)] }, _, [], rfl, rfl⟩⟩

/-- An offer that waits while the unit executes, and one that waits while the response is taken. -/
theorem witness_OfferedFrameWaitsOutsideIdle :
    (∃ (s t : State) (f cmd : Frame) (rest : List Move),
      s.phase = .busy cmd ∧ s.phase ≠ .idle ∧ s.schedule = .accept f :: rest ∧ step s = .next t) ∧
    (∃ (s t : State) (f rsp : Frame) (rest : List Move),
      s.phase = .resp rsp ∧ s.phase ≠ .idle ∧ s.schedule = .accept f :: rest ∧ step s = .next t) :=
  ⟨⟨{ holding false [] with schedule := [.accept clzFrame] }, _, clzFrame, [], [], rfl, by simp [holding], rfl, rfl⟩,
    ⟨{ State.reset with phase := .resp [0x03#8, 0x00#8], schedule := [.accept clzFrame, .deliver] }, _, clzFrame, _, _,
      rfl, by simp, rfl, rfl⟩⟩

theorem witness_LatchesAreHeldUntilAnsweredTakenOrReset :
    (∃ (s t : State) (cmd : Frame), step s = .next t ∧ s.phase = .busy cmd) ∧
    (∃ (s t : State) (rsp : Frame), step s = .next t ∧ s.phase = .resp rsp) :=
  ⟨⟨holding false [], _, [], rfl, rfl⟩,
    ⟨{ State.reset with phase := .resp [0x03#8, 0x00#8], schedule := [.reset] }, _, _, rfl, rfl⟩⟩

theorem witness_NoStepChangesTheParameter : ∃ s t : State, step s = .next t ∧ s.cfg = ⟨true⟩ :=
  ⟨holding true [], _, rfl, rfl⟩

/-- A machine that stops, and both kinds of waiting state. -/
theorem witness_MachineStopsExactlyWhenNoStepIsEnabled :
    step State.reset = .fault .noEnabledStep ∧
    step ({ State.reset with schedule := [.deliver, .execute] } : State) = .fault .noEnabledStep ∧
    step ({ State.reset with phase := .resp [0x03#8, 0x00#8], schedule := [.accept []] } : State)
      = .fault .noEnabledStep := ⟨rfl, rfl, rfl⟩

theorem witness_ResponseIsAFunctionOfFrameAndParameter :
    ∃ (s r : State) (cmd : Frame) (rest : List Move), s.phase = .busy cmd ∧ s.schedule = [] ∧
      r.phase = .busy cmd ∧ r.schedule = .execute :: rest :=
  ⟨holding false clzFrame, { holding true clzFrame with schedule := [.execute] }, clzFrame, [], rfl, rfl, rfl, rfl⟩

/-- A frame for each of the two cases: an addition, and a reciprocal below its range. -/
theorem witness_ParameterChangesOnlyTheStatusOfRangeFaults :
    answers false (0x0A#8 :: (List.replicate 31 0x00#8 ++ [0x01#8])) [0x04#8, 0x00#8] = true ∧
    answers true (0x0A#8 :: (List.replicate 31 0x00#8 ++ [0x01#8])) [0x05#8, 0x00#8] = true := by decide +kernel

theorem witness_EveryAcceptedCommandIsAnswered :
    ∃ (s : State) (cmd : Frame), s.phase = .busy cmd ∧ s.schedule.length = 2 ∧
      ∀ m ∈ s.schedule, m ≠ .reset ∧ ∀ p, m = .edge p → p.rst = false :=
  ⟨{ holding false clzFrame with schedule := [.accept clzFrame, .edge (pins true 0x01#8 true true)] }, clzFrame, rfl,
    rfl, by simp [pins]⟩

theorem witness_TransactionReturnsToIdleWithOneResponse :
    ∃ (s : State) (f : Frame) (rest : List Move), s.phase = .idle ∧ s.rx = [] ∧ s.taken = 0 ∧
      s.schedule = .accept f :: .execute :: .deliver :: rest :=
  ⟨{ State.reset with schedule := [.accept clzFrame, .execute, .deliver, .reset] }, clzFrame, [.reset], rfl, rfl, rfl,
    rfl⟩

/-- The response that is taken is a fault. -/
theorem witness_FaultsAreNotSticky :
    ∃ (s : State) (rsp f : Frame) (rest : List Move), s.phase = .resp rsp ∧ rsp = faultResponse 3 ∧ s.rx = [] ∧
      s.schedule = .deliver :: .accept f :: .execute :: rest :=
  ⟨{ State.reset with phase := .resp (faultResponse 3), schedule := [.deliver, .accept clzFrame, .execute] }, _,
    clzFrame, [], rfl, rfl, rfl, rfl⟩

/-- A busy state and a state half way through a response, both of which a step leaves. -/
theorem witness_EveryStepKeepsTheInvariant :
    (∃ s t : State, s.inv = true ∧ step s = .next t ∧ s.phase = .busy []) ∧
    (∃ s t : State, s.inv = true ∧ step s = .next t ∧ s.taken = 1 ∧ s.received.length = 1) :=
  ⟨⟨holding false [], _, rfl, rfl, rfl⟩,
    ⟨{ State.reset with
        phase := .resp (faultResponse 2), taken := 1, received := [faultResponse 1],
        schedule := [.edge (pins false 0x00#8 false true)] }, _, by decide, rfl, rfl, rfl⟩⟩

/-! ## Witnesses: the channels and text -/

/-- Two bytes with a stall between them, as a schedule of edges. -/
theorem witness_FrameSentByteByByteIsAccepted :
    ∃ (s : State) (f : Frame) (ps : List Pins) (rest : List Move), s.phase = .idle ∧ s.rx = [] ∧ f ≠ [] ∧
      ps.all (fun p => !p.rst) = true ∧
      (ps.filter (·.cmdValid)).map (fun p => (p.cmdData, p.cmdLast)) = markLast f ∧
      s.schedule = ps.map Move.edge ++ rest ∧ ps.length = 3 :=
  let ps := [pins true 0x09#8 false true, pins false 0xFF#8 true true, pins true 0x01#8 true false]
  ⟨{ State.reset with schedule := ps.map Move.edge ++ [.execute] }, [0x09#8, 0x01#8], ps, [.execute], rfl, rfl, by simp,
    rfl, rfl, rfl, rfl⟩

/-- A command byte stands at the port while the first byte moves; a stall; the last byte; one idle edge. -/
theorem witness_ResponseTakenByteByByteIsDelivered :
    ∃ (s : State) (rsp : Frame) (ps : List Pins) (p : Pins) (qs : List Pins) (rest : List Move),
      s.phase = .resp rsp ∧ s.taken = 0 ∧ ps.all (fun p => !p.rst) = true ∧
      (ps.filter (·.rspReady)).length + 1 = rsp.length ∧ p.rst = false ∧ p.rspReady = true ∧
      qs.all (fun p => !p.rst && !p.cmdValid) = true ∧
      s.schedule = (ps ++ p :: qs).map Move.edge ++ rest ∧ ps.length = 2 ∧ qs.length = 1 :=
  let ps := [pins true 0x01#8 true true, pins false 0x00#8 false false]
  let p := pins false 0x00#8 false true
  ⟨{ State.reset with phase := .resp [0x03#8, 0x00#8], schedule := (ps ++ p :: [p]).map Move.edge ++ [] }, _, ps, p,
    [p], [], rfl, rfl, rfl, rfl, rfl, rfl, rfl, rfl, rfl, rfl⟩

theorem witness_BytesMoveOnlyWhereTheChannelIsReady :
    (pins true 0x01#8 true true).rst = false ∧
    (∃ (s : State) (cmd : Frame), s.phase = .busy cmd) ∧
    (∃ s : State, s.phase = .idle ∧ (pins false 0x01#8 true true).cmdValid = false) ∧
    (∃ (s : State) (rsp : Frame), s.phase = .resp rsp ∧ (pins true 0x01#8 true false).rspReady = false) :=
  ⟨rfl, ⟨holding false [], [], rfl⟩, ⟨State.reset, rfl, rfl⟩,
    ⟨{ State.reset with phase := .resp [0x03#8, 0x00#8] }, _, rfl, rfl⟩⟩

/-- A reset while a byte of a frame had been collected. -/
theorem witness_ResetEdgeDropsTransfersInProgress :
    ∃ (s : State) (f : Frame) (p : Pins) (ps : List Pins), s.rx ≠ [] ∧ p.rst = true ∧ f ≠ [] ∧
      ps.all (fun p => !p.rst) = true ∧
      (ps.filter (·.cmdValid)).map (fun p => (p.cmdData, p.cmdLast)) = markLast f :=
  ⟨{ State.reset with rx := [0x01#8] }, [0x0C#8], { pins true 0x01#8 true true with rst := true },
    [pins true 0x0C#8 true false], by simp, rfl, by simp, rfl, rfl⟩

/-- Both sides of the equivalence hold of a line with a `0x` and digits of both cases. -/
theorem witness_CommandTextAssembles :
    assembleText (commandLine .hugeuintclz [['0', 'x'] ++ List.replicate 62 '0' ++ ['a', 'F']]) =
      some (0x09#8 :: (List.replicate 31 0x00#8 ++ [0xAF#8])) ∧
    spellsParam (['0', 'x'] ++ List.replicate 62 '0' ++ ['a', 'F']) (List.replicate 31 0x00#8 ++ [0xAF#8]) = true ∧
    (List.replicate 31 0x00#8 ++ [0xAF#8] : Frame).length = 32 := by decide +kernel

theorem witness_ResponseReadsBack : 2 ^ 512 - 1 < 2 ^ 512 ∧ 2 ^ 256 - 1 < 2 ^ 256 := by decide +kernel

end Sys2Proof.Tests
end

/-!
PROOF. Bytes and values (R31 to R33): the bytes of a number, the number of a string and of its parts, and from them
that the conversions of every width of whole bytes are inverse and that 32 bytes are one limb.
-/

namespace Sys2Proof

/-! ## Numbers and strings of any length -/

/-- Byte `i` of the big-endian form (R33). -/
theorem toBe_getD_toNat (n v i : Nat) (h : i < n) :
    ((toBe n v).getD i 0x00#8).toNat = v / 256 ^ (n - 1 - i) % 256 := by
  induction n generalizing i with
  | zero => omega
  | succ n ih =>
    cases i with
    | zero => simp [toBe]
    | succ i =>
      have hn : n + 1 - 1 - (i + 1) = n - 1 - i := by omega
      rw [toBe, List.getD_cons_succ, ih i (by omega), hn]

/-- The `n` bytes of a number spell it modulo `256^n`. -/
theorem fromBe_toBe (n v : Nat) : fromBe (toBe n v) = v % 256 ^ n := by
  induction n with
  | zero => simp [toBe, Nat.mod_one]
  | succ n ih =>
    have hsplit : v % 256 ^ (n + 1) = v % 256 ^ n + 256 ^ n * (v / 256 ^ n % 256) := by rw [pow_succ, Nat.mod_mul]
    rw [toBe, fromBe_cons, ih, toBe_length, BitVec.toNat_ofNat, hsplit]
    ring

/-- The number of a string's first part is the quotient by the weight of the rest. -/
theorem fromBe_append_div (s t : Frame) : fromBe (s ++ t) / 256 ^ t.length = fromBe s := by
  rw [fromBe_append, Nat.add_comm, Nat.add_mul_div_right _ _ (by positivity), Nat.div_eq_of_lt (fromBe_lt t),
    Nat.zero_add]

/-- The number of a string's last part is the remainder by its weight. -/
theorem fromBe_append_mod (s t : Frame) : fromBe (s ++ t) % 256 ^ t.length = fromBe t := by
  rw [fromBe_append, Nat.mul_add_mod', Nat.mod_eq_of_lt (fromBe_lt t)]

/-- The bytes of a string's number are the string. -/
theorem toBe_fromBe (s : Frame) : toBe s.length (fromBe s) = s := by
  induction s with
  | nil => rfl
  | cons b s ih =>
    have hhead : fromBe (b :: s) / 256 ^ s.length = b.toNat := by
      simpa [fromBe_cons] using fromBe_append_div [b] s
    have htail : toBe s.length (fromBe (b :: s)) = toBe s.length (fromBe s) := by
      rw [fromBe_cons, Nat.add_comm, toBe_add_mul]
    rw [List.length_cons, toBe, hhead, htail, ih, BitVec.ofNat_toNat, BitVec.setWidth_eq]

/-! ## Parts of a string -/

theorem fromBe_take (s : Frame) (i : Nat) : fromBe (s.take i) = fromBe s / 256 ^ (s.length - i) := by
  simpa using (fromBe_append_div (s.take i) (s.drop i)).symm

theorem fromBe_drop (s : Frame) (i : Nat) : fromBe (s.drop i) = fromBe s % 256 ^ (s.length - i) := by
  simpa using (fromBe_append_mod (s.take i) (s.drop i)).symm

/-- The number of `s[i..j)`: what stands between the weights of its two ends. -/
theorem fromBe_slice (s : Frame) (i j : Nat) (hij : i ≤ j) (hj : j ≤ s.length) :
    fromBe (slice s i j) = fromBe s / 256 ^ (s.length - j) % 256 ^ (j - i) := by
  have hlen : s.length - i = (s.length - j) + (j - i) := by omega
  have hcut : s.length - i - (j - i) = s.length - j := by omega
  rw [slice, fromBe_take, List.length_drop, hcut, fromBe_drop, hlen, pow_add, Nat.mod_mul_right_div_self]

/-! ## Values of a width of whole bytes -/

/-- The values of `n` bytes are those of `8 * n` bits. -/
theorem pow_256_eq (n : Nat) : 256 ^ n = 2 ^ (8 * n) := Nat.pow_mul 2 8 n |>.symm

/-- The value of a string of `W` bits is its number: nothing is cut (R32). -/
theorem fromBeW_toNat (W : Nat) (s : Frame) (h : 8 * s.length = W) : (fromBeW W s).toNat = fromBe s := by
  have hlt := fromBe_lt s
  rw [pow_256_eq, h] at hlt
  rw [fromBeW, BitVec.toNat_ofNat, Nat.mod_eq_of_lt hlt]

theorem fromBeW_toBeW {W : Nat} (v : FixedWidthUint W) (h : 8 * (W / 8) = W) : fromBeW W (toBeW v) = v := by
  apply BitVec.eq_of_toNat_eq
  rw [fromBeW_toNat W _ (by rw [toBeW_length, h]), toBeW, fromBe_toBe, pow_256_eq, h, Nat.mod_eq_of_lt v.isLt]

theorem toBeW_fromBeW (W : Nat) (s : Frame) (h : 8 * s.length = W) : toBeW (fromBeW W s) = s := by
  have hlen : W / 8 = s.length := by omega
  rw [toBeW, fromBeW_toNat W s h, hlen, toBe_fromBe]

/-- Limb `k` of a string's value is the value of the 32 bytes behind which `32 * k` bytes stand (R32). -/
theorem limb_fromBeW (W : Nat) (s : Frame) (i k : Nat) (h : 8 * s.length = W) (hk : i + 32 + 32 * k = s.length) :
    Machine.limb k (fromBeW W s) = fromBeW 256 (slice s i (i + 32)) := by
  have hafter : s.length - (i + 32) = 32 * k := by omega
  have hslice : (slice s i (i + 32)).length = 32 := by rw [slice_length s _ _ (by omega)]; omega
  apply BitVec.eq_of_toNat_eq
  calc (Machine.limb k (fromBeW W s)).toNat
      = fromBe s / 2 ^ (256 * k) % 2 ^ 256 := by rw [Machine.limb_toNat, fromBeW_toNat W s h]
    _ = fromBe s / 256 ^ (32 * k) % 256 ^ 32 := by rw [pow_256_eq, pow_256_eq, ← Nat.mul_assoc]
    _ = fromBe (slice s i (i + 32)) := by
        rw [fromBe_slice s _ _ (by omega) (by omega), hafter, Nat.add_sub_cancel_left]
    _ = (fromBeW 256 (slice s i (i + 32))).toNat := (fromBeW_toNat 256 _ (by rw [hslice])).symm

/-! ## The obligations -/

/-- Settles O5: the three widths are whole numbers of bytes, where the conversions are inverse. -/
theorem canonicalBytesAndValuesAreInverse : Obligations.CanonicalBytesAndValuesAreInverse := by
  intro W hW
  have h8 : 8 * (W / 8) = W := by omega
  refine ⟨fun v => ⟨toBeW_length v, fun i hi => ?_, fromBeW_toBeW v h8⟩, fun s hs => ?_⟩
  · exact toBe_getD_toNat (W / 8) v.toNat i hi
  · exact toBeW_fromBeW W s (by rw [hs, h8])

/-- Settles O6: each limb is a slice of 32 bytes, cut off by whole limbs behind it. -/
theorem operandBytesAreLimbsMostSignificantFirst : Obligations.OperandBytesAreLimbsMostSignificantFirst := by
  refine ⟨fun s hs => ?_, fun s hs => ?_, fun s hs => ?_⟩
  · have hW : 8 * s.length = 256 := by omega
    exact ⟨fromBeW_toNat 256 s hW, limb_fromBeW 256 s 0 0 hW (by omega)⟩
  · have hW : 8 * s.length = 512 := by omega
    exact ⟨fromBeW_toNat 512 s hW, limb_fromBeW 512 s 0 1 hW (by omega), limb_fromBeW 512 s 32 0 hW (by omega)⟩
  · have hW : 8 * s.length = 768 := by omega
    exact ⟨fromBeW_toNat 768 s hW, limb_fromBeW 768 s 0 2 hW (by omega), limb_fromBeW 768 s 32 1 hW (by omega),
      limb_fromBeW 768 s 64 0 hW (by omega)⟩

end Sys2Proof

/-!
PROOF. The pair payload (R73): the canonical form of 512 bits is its high word and then its low word, so the payload is
its two halves exchanged.
-/

namespace Sys2Proof

open Machine

/-- The first `m` bytes spell the quotient by the weight of the last `n`. -/
theorem toBe_add (m n v : Nat) : toBe (m + n) v = toBe m (v / 256 ^ n) ++ toBe n v := by
  induction m with
  | zero => simp [toBe]
  | succ m ih =>
    have hhead : v / 256 ^ (m + n) = v / 256 ^ n / 256 ^ m := by rw [Nat.div_div_eq_div_mul, ← pow_add, Nat.add_comm]
    rw [Nat.succ_add, toBe, ih, hhead, toBe, List.cons_append]

/-- At a width of whole bytes the canonical form determines the value (R33). -/
theorem toBeW_inj {W : Nat} (h : 8 * (W / 8) = W) {u v : FixedWidthUint W} : toBeW u = toBeW v ↔ u = v :=
  (Function.LeftInverse.injective (g := fromBeW W) fun w => fromBeW_toBeW w h).eq_iff

theorem lo_toNat (v : U512) : (lo v).toNat = v.toNat % 2 ^ 256 := by
  rw [lo, limb_toNat, Nat.mul_zero, pow_zero, Nat.div_one]

theorem hi_toNat (v : U512) : (hi v).toNat = v.toNat / 2 ^ 256 := by
  have hlt := v.isLt
  rw [hi, limb_toNat, Nat.mul_one, Nat.mod_eq_of_lt (by omega)]

/-- The canonical form of 512 bits sends the high word first (R31, R33). -/
theorem toBeW_eq_hi_append_lo (v : U512) : toBeW v = toBeW (hi v) ++ toBeW (lo v) := by
  have hw : (2 : Nat) ^ 256 = 256 ^ 32 := (pow_256_eq 32).symm
  calc toBeW v = toBe 32 (v.toNat / 256 ^ 32) ++ toBe 32 v.toNat := toBe_add 32 32 v.toNat
    _ = toBe 32 (hi v).toNat ++ toBe 32 (lo v).toNat := by rw [hi_toNat, lo_toNat, hw, toBe_mod]

/-- The payload is the canonical form exactly when exchanging its words changes nothing (R73). -/
theorem encPair_eq_toBeW_iff (v : U512) : encPair v = toBeW v ↔ hi v = lo v := by
  rw [encPair, toBeW_eq_hi_append_lo]
  constructor
  · intro h
    have hfirst : toBeW (lo v) = toBeW (hi v) := List.append_inj_left h (by simp only [toBeW_length])
    exact ((toBeW_inj rfl).mp hfirst).symm
  · intro h
    rw [h]

/-- Settles O10: the payload is its two words' bytes by definition, and the canonical form's halves are those words. -/
theorem pairPayloadIsLowWordFirst : Obligations.PairPayloadIsLowWordFirst := by
  intro v
  refine ⟨?_, ?_, encPair_eq_toBeW_iff v⟩
  · rw [← lo_toNat, ← hi_toNat]
    rfl
  · have hlen : (toBeW (hi v)).length = 32 := toBeW_length _
    rw [toBeW_eq_hi_append_lo, List.drop_left' hlen, List.take_left' hlen, encPair]

end Sys2Proof

/-!
PROOF. Decoding a frame written as an opcode and operand bytes (R62, R64 to R66): the opcode selects its command, and
each operand is cut out where the frame holds it.
-/

namespace Sys2Proof

open Machine

/-- The opcode map reads back the opcode of every command (R64). -/
theorem ofOpcode_opcode (c : Command) : Command.ofOpcode c.opcode = some c := by
  cases c <;> rfl

/-- A frame of the right length behind a command's opcode decodes to that command, its operands assembled (R65). -/
theorem decode_opcode_cons (c : Command) (body : Frame) (h : body.length + 1 = c.length) :
    decode (c.opcode :: body) = .ok (c.assemble (c.opcode :: body)) := by
  simp only [decode, ofOpcode_opcode, List.length_cons, h, if_true]

/-- The slice between two offsets is the part that stands there. -/
theorem slice_append_middle (p a t : Frame) : slice (p ++ (a ++ t)) p.length (p.length + a.length) = a := by
  rw [slice, List.drop_left, Nat.add_sub_cancel_left, List.take_left]

/-- Bytes 1 to 64 of a frame are its first operand of 512 bits (R62). -/
theorem slice_first_operand (op : Byte) (v : U512) (t : Frame) : slice (op :: (toBeW v ++ t)) 1 65 = toBeW v :=
  slice_append_middle [op] (toBeW v) t

/-- Bytes 65 to 128 of a frame are its second operand of 512 bits (R62). -/
theorem slice_second_operand (op : Byte) (u v : U512) : slice (op :: (toBeW u ++ toBeW v)) 65 129 = toBeW v := by
  simpa using slice_append_middle (op :: toBeW u) (toBeW v) []

/-- A command that is assembled from two operands of 512 bits is read back from the frame that carries them (R66). -/
theorem decode_two_operands {c : Command} {mk : U512 → U512 → Instr} (hlen : c.length = 129)
    (hmk : ∀ cmd, c.assemble cmd = mk (fromBeW 512 (slice cmd 1 65)) (fromBeW 512 (slice cmd 65 129))) (A B : U512) :
    decode (c.opcode :: (toBeW A ++ toBeW B)) = .ok (mk A B) := by
  have hbody : (toBeW A ++ toBeW B).length + 1 = c.length := by simp [hlen]
  rw [decode_opcode_cons c _ hbody, hmk, slice_first_operand, slice_second_operand, fromBeW_toBeW A rfl,
    fromBeW_toBeW B rfl]

theorem decode_hugeuintadd (A B : U512) : decode (0x03#8 :: (toBeW A ++ toBeW B)) = .ok (.hugeuintadd A B) :=
  decode_two_operands (c := .hugeuintadd) rfl (fun _ => rfl) A B

theorem decode_hugeuintsub (A B : U512) : decode (0x04#8 :: (toBeW A ++ toBeW B)) = .ok (.hugeuintsub A B) :=
  decode_two_operands (c := .hugeuintsub) rfl (fun _ => rfl) A B

end Sys2Proof

/-!
PROOF. Addition and subtraction (R100, R101, R104): the arithmetic of one width is that of bit vectors, whose laws give
the values, and TRUNC is the carry or the borrow of the numbers.
-/

namespace Sys2Proof

open Machine

/-! ## Answering with a pair -/

/-- The frame of a pair reply, written from its number (R73, R75). -/
theorem okFrame_pairReply (trunc : Bool) (v : U512) : okFrame (pairReply trunc v) = pairResponse trunc v.toNat := by
  rw [pairResponse, ← lo_toNat, ← hi_toNat]
  rfl

/-- A command whose reply is a pair answers with that pair's frame and changes nothing else. -/
theorem exec_of_pairReply {i : Instr} {s : State} {trunc : Bool} {v : U512}
    (h : replyOf s.cfg.recipPrecheck i = .ok (pairReply trunc v)) :
    exec i s = .next (s.answeredWith (pairResponse trunc v.toNat)) := by
  rw [exec_eq_answer, h, answer_eq, answerFrame, okFrame_pairReply]

theorem exec_hugeuintadd (A B : U512) (s : State) :
    exec (.hugeuintadd A B) s = .next (s.answeredWith (pairResponse (addTruncates A B) (addW A B).toNat)) :=
  exec_of_pairReply rfl

theorem exec_hugeuintsub (A B : U512) (s : State) :
    exec (.hugeuintsub A B) s = .next (s.answeredWith (pairResponse (subTruncates A B) (subW A B).toNat)) :=
  exec_of_pairReply rfl

/-! ## The arithmetic of one width (R103) -/

theorem addW_toNat {W : Nat} (x y : FixedWidthUint W) : (addW x y).toNat = (x.toNat + y.toNat) % 2 ^ W :=
  BitVec.toNat_ofNat _ _

/-- The sum of R103 is the sum of bit vectors. -/
theorem addW_eq_add {W : Nat} (x y : FixedWidthUint W) : addW x y = x + y :=
  BitVec.eq_of_toNat_eq (by rw [addW_toNat, BitVec.toNat_add])

/-- Without a borrow the difference is exact. -/
theorem subW_toNat_of_le {W : Nat} {x y : FixedWidthUint W} (h : y.toNat ≤ x.toNat) :
    (subW x y).toNat = x.toNat - y.toNat := by
  rw [subW, if_pos h, BitVec.toNat_ofNat, Nat.mod_eq_of_lt (Nat.sub_lt_of_lt x.isLt)]

/-- With a borrow the difference is `2^W` more than the true one. -/
theorem subW_toNat_of_lt {W : Nat} {x y : FixedWidthUint W} (h : x.toNat < y.toNat) :
    (subW x y).toNat = 2 ^ W + x.toNat - y.toNat := by
  rw [subW, if_neg (Nat.not_le.mpr h), BitVec.toNat_ofNat, Nat.mod_eq_of_lt (by omega)]

/-- The difference of R103 is the difference of bit vectors. -/
theorem subW_eq_sub {W : Nat} (x y : FixedWidthUint W) : subW x y = x - y := by
  apply BitVec.eq_of_toNat_eq
  rcases Nat.lt_or_ge x.toNat y.toNat with h | h
  · have hy := y.isLt
    have hcomm : 2 ^ W + x.toNat - y.toNat = 2 ^ W - y.toNat + x.toNat := by omega
    rw [subW_toNat_of_lt h, BitVec.toNat_sub, hcomm, Nat.mod_eq_of_lt (by omega)]
  · rw [subW_toNat_of_le h, BitVec.toNat_sub_of_le h]

/-! ## The laws of R104 -/

theorem addW_comm {W : Nat} (x y : FixedWidthUint W) : addW x y = addW y x := by
  rw [addW_eq_add, addW_eq_add, BitVec.add_comm]

theorem subW_addW_cancel {W : Nat} (x y : FixedWidthUint W) : subW (addW x y) y = x := by
  rw [addW_eq_add, subW_eq_sub, BitVec.add_sub_cancel]

theorem addW_subW_cancel {W : Nat} (x y : FixedWidthUint W) : addW (subW x y) y = x := by
  rw [addW_eq_add, subW_eq_sub, BitVec.sub_add_cancel]

theorem subW_eq_zero_iff {W : Nat} (x y : FixedWidthUint W) : subW x y = 0 ↔ x = y := by
  rw [subW_eq_sub, sub_eq_zero]

theorem addTruncates_comm (A B : U512) : addTruncates A B = addTruncates B A := by
  rw [addTruncates, addTruncates, Nat.add_comm]

/-- A sum has wrapped exactly when it is below its operand: the carry of the addition is the borrow of the
subtraction that undoes it (R104). -/
theorem subTruncates_addW (A B : U512) : subTruncates (addW A B) B = addTruncates A B := by
  have hA := A.isLt
  have hB := B.isLt
  rw [subTruncates, addTruncates, decide_eq_decide, addW_toNat]
  omega

/-! ## The obligations -/

/-- Settles O11: the decoder reads both operands back, and the reply is the sum of their numbers modulo `2^512`. -/
theorem hugeuintaddAnswersTheSumModulo512 : Obligations.HugeuintaddAnswersTheSumModulo512 := by
  intro A B s
  refine ⟨decode_hugeuintadd A B, ?_⟩
  rw [exec_hugeuintadd, addW_toNat, addTruncates]

/-- Settles O12: the decoder reads both operands back, and the difference has the two branches of R101. -/
theorem hugeuintsubAnswersTheDifferenceModulo512 : Obligations.HugeuintsubAnswersTheDifferenceModulo512 := by
  intro A B s
  refine ⟨decode_hugeuintsub A B, fun hle => ?_, fun hlt => ?_⟩
  · rw [exec_hugeuintsub, subW_toNat_of_le hle, subTruncates, decide_eq_false (Nat.not_lt.mpr hle)]
  · rw [exec_hugeuintsub, subW_toNat_of_lt hlt, subTruncates, decide_eq_true hlt]

/-- Settles O26: the values by the laws of bit vectors, and TRUNC because the borrow of the subtraction is the carry of
the addition it undoes. -/
theorem subtractionUndoesAddition : Obligations.SubtractionUndoesAddition := by
  intro A B s
  refine ⟨⟨addW A B, addTruncates A B, exec_hugeuintadd A B s, ?_, decide_eq_true_iff⟩,
    ⟨subW A B, subTruncates A B, addTruncates (subW A B) B, exec_hugeuintsub A B s, ?_, subW_eq_zero_iff A B⟩, ?_⟩
  · rw [exec_hugeuintsub, subTruncates_addW, subW_addW_cancel]
  · rw [exec_hugeuintadd, addW_subW_cancel]
  · rw [exec_hugeuintadd, exec_hugeuintadd, addW_comm, addTruncates_comm]

end Sys2Proof

/-!
PROOF. Multiplication (R110, R111, R113): the product of one width is symmetric in its operands, `hugeuintmul256` keeps
it exact by narrowing both of them first, and `hugeuintmul` sends what fits and TRUNC.
-/

namespace Sys2Proof

open Machine

/-! ## Narrowing and answering with a fault -/

/-- Narrowing a value of `2^256` or more faults (R35). -/
theorem narrow256_of_ge {W : Nat} {v : FixedWidthUint W} (h : 2 ^ 256 ≤ v.toNat) :
    narrow256 v = .error .narrowingViolation := by
  obtain ⟨-, hfault⟩ | ⟨hlt, -⟩ := narrow256_cases v
  · exact hfault
  · omega

/-- Narrowing a value below `2^256` keeps its number (R35). -/
theorem narrow256_of_lt {W : Nat} {v : FixedWidthUint W} (h : v.toNat < 2 ^ 256) :
    ∃ r : U256, narrow256 v = .ok r ∧ r.toNat = v.toNat := by
  obtain ⟨hge, -⟩ | ⟨-, hkept⟩ := narrow256_cases v
  · omega
  · exact hkept

/-- A command whose reply is a fault answers with that fault's frame and changes nothing else (R176). -/
theorem exec_of_faultReply {i : Instr} {s : State} {c : Cause} (h : replyOf s.cfg.recipPrecheck i = .error c) :
    exec i s = .next (s.answeredWith (faultFrame c)) := by
  rw [exec_eq_answer, h, answer_eq, answerFrame]

/-! ## The product of one width -/

theorem mul512_toNat {V : Nat} (x y : FixedWidthUint V) : (mul512 x y).toNat = x.toNat * y.toNat % 2 ^ 512 :=
  BitVec.toNat_ofNat _ _

/-- The product depends on the operands' numbers alone, not on their width. -/
theorem mul512_congr {V W : Nat} {x y : FixedWidthUint V} {u v : FixedWidthUint W} (hx : x.toNat = u.toNat)
    (hy : y.toNat = v.toNat) : mul512 x y = mul512 u v := by
  simp only [mul512, hx, hy]

theorem mul512_comm {V : Nat} (x y : FixedWidthUint V) : mul512 x y = mul512 y x := by
  rw [mul512, mul512, Nat.mul_comm]

theorem mulTruncates_comm (A B : U512) : mulTruncates A B = mulTruncates B A := by
  rw [mulTruncates, mulTruncates, Nat.mul_comm]

/-- Two numbers below `2^256` have a product below `2^512` (R110). -/
theorem mul_lt_of_lt_256 {a b : Nat} (ha : a < 2 ^ 256) (hb : b < 2 ^ 256) : a * b < 2 ^ 512 := by
  have hsquare : 2 ^ 512 = 2 ^ 256 * 2 ^ 256 := by rw [← pow_add]
  rw [hsquare]
  exact Nat.mul_lt_mul'' ha hb

/-! ## The two replies -/

/-- Both operands narrow, so the reply is their product without truncation (R110). -/
theorem replyHugeuintmul256_of_lt {A B : U512} (hA : A.toNat < 2 ^ 256) (hB : B.toNat < 2 ^ 256) :
    replyHugeuintmul256 A B = .ok (pairReply false (mul512 A B)) := by
  obtain ⟨a, haok, ha⟩ := narrow256_of_lt hA
  obtain ⟨b, hbok, hb⟩ := narrow256_of_lt hB
  rw [replyHugeuintmul256, haok, hbok, ← mul512_congr ha hb]
  rfl

/-- Whichever operand does not narrow, the reply is the one fault of narrowing (R110). -/
theorem replyHugeuintmul256_of_ge {A B : U512} (h : 2 ^ 256 ≤ A.toNat ∨ 2 ^ 256 ≤ B.toNat) :
    replyHugeuintmul256 A B = .error .narrowingViolation := by
  rw [replyHugeuintmul256]
  obtain ⟨-, hA⟩ | ⟨hlt, a, hA, -⟩ := narrow256_cases A
  · rw [hA]
    rfl
  · rw [hA, narrow256_of_ge (h.resolve_left (Nat.not_le.mpr hlt))]
    rfl

theorem replyHugeuintmul256_comm (A B : U512) : replyHugeuintmul256 A B = replyHugeuintmul256 B A := by
  by_cases h : 2 ^ 256 ≤ A.toNat ∨ 2 ^ 256 ≤ B.toNat
  · rw [replyHugeuintmul256_of_ge h, replyHugeuintmul256_of_ge h.symm]
  · obtain ⟨hA, hB⟩ := not_or.mp h
    rw [replyHugeuintmul256_of_lt (Nat.lt_of_not_le hA) (Nat.lt_of_not_le hB),
      replyHugeuintmul256_of_lt (Nat.lt_of_not_le hB) (Nat.lt_of_not_le hA), mul512_comm]

theorem replyHugeuintmul_comm (A B : U512) : replyHugeuintmul A B = replyHugeuintmul B A := by
  rw [replyHugeuintmul, replyHugeuintmul, mulTruncates_comm, mul512_comm]

/-! ## The commands -/

theorem decode_hugeuintmul256 (A B : U512) : decode (0x05#8 :: (toBeW A ++ toBeW B)) = .ok (.hugeuintmul256 A B) :=
  decode_two_operands (c := .hugeuintmul256) rfl (fun _ => rfl) A B

theorem decode_hugeuintmul (A B : U512) : decode (0x06#8 :: (toBeW A ++ toBeW B)) = .ok (.hugeuintmul A B) :=
  decode_two_operands (c := .hugeuintmul) rfl (fun _ => rfl) A B

theorem exec_hugeuintmul256_of_lt {A B : U512} (hA : A.toNat < 2 ^ 256) (hB : B.toNat < 2 ^ 256) (s : State) :
    exec (.hugeuintmul256 A B) s = .next (s.answeredWith (pairResponse false (mul512 A B).toNat)) :=
  exec_of_pairReply (replyHugeuintmul256_of_lt hA hB)

theorem exec_hugeuintmul256_of_ge {A B : U512} (h : 2 ^ 256 ≤ A.toNat ∨ 2 ^ 256 ≤ B.toNat) (s : State) :
    exec (.hugeuintmul256 A B) s = .next (s.answeredWith (faultResponse 0x04)) :=
  exec_of_faultReply (c := .narrowingViolation) (replyHugeuintmul256_of_ge h)

theorem exec_hugeuintmul (A B : U512) (s : State) :
    exec (.hugeuintmul A B) s = .next (s.answeredWith (pairResponse (mulTruncates A B) (mul512 A B).toNat)) :=
  exec_of_pairReply rfl

/-! ## The obligations -/

/-- Settles O13: operands that narrow have a product of 512 bits, which nothing cuts; the others fault. -/
theorem hugeuintmul256AnswersTheExactProduct : Obligations.Hugeuintmul256AnswersTheExactProduct := by
  intro A B s
  refine ⟨decode_hugeuintmul256 A B, fun ⟨hA, hB⟩ => ?_, fun h => exec_hugeuintmul256_of_ge h s⟩
  have hfits : A.toNat * B.toNat < 2 ^ 512 := mul_lt_of_lt_256 hA hB
  refine ⟨hfits, ?_⟩
  rw [exec_hugeuintmul256_of_lt hA hB, mul512_toNat, Nat.mod_eq_of_lt hfits]

/-- Settles O14: the decoder reads both operands back, and the reply is the product of their numbers modulo `2^512`. -/
theorem hugeuintmulAnswersTheProductModulo512 : Obligations.HugeuintmulAnswersTheProductModulo512 := by
  intro A B s
  refine ⟨decode_hugeuintmul A B, ?_⟩
  rw [exec_hugeuintmul, mul512_toNat, mulTruncates]

/-- Settles O27: each reply is symmetric, with its flag or its fault, and a command does no more than answer it. -/
theorem multiplicationIsCommutative : Obligations.MultiplicationIsCommutative := by
  intro A B s
  constructor
  · simp only [exec_eq_answer, replyOf, replyHugeuintmul256_comm A B]
  · simp only [exec_eq_answer, replyOf, replyHugeuintmul_comm A B]

end Sys2Proof

/-!
PROOF. Division (R121 to R127): each command's reply is the floor quotient of the numbers, passed on whole, rounded up
or narrowed; what the quotient satisfies is arithmetic of natural numbers.
-/

namespace Sys2Proof

open Machine

/-! ## The frames of the four commands -/

/-- Bytes 65 to 96 of a frame of `F512_256` are its operand of 256 bits (R62). -/
theorem slice_second_operand_256 (op : Byte) (u : U512) (v : U256) :
    slice (op :: (toBeW u ++ toBeW v)) 65 97 = toBeW v := by
  simpa using slice_append_middle (op :: toBeW u) (toBeW v) []

theorem decode_div512 (A B : U512) : decode (0x01#8 :: (toBeW A ++ toBeW B)) = .ok (.div512 A B) :=
  decode_two_operands (c := .div512) rfl (fun _ => rfl) A B

theorem decode_divup512 (A B : U512) : decode (0x02#8 :: (toBeW A ++ toBeW B)) = .ok (.divup512 A B) :=
  decode_two_operands (c := .divup512) rfl (fun _ => rfl) A B

theorem decode_hugeuintdiv256 (A : U512) (B : U256) :
    decode (0x07#8 :: (toBeW A ++ toBeW B)) = .ok (.hugeuintdiv256 A B) := by
  have hbody : (toBeW A ++ toBeW B).length + 1 = Command.hugeuintdiv256.length := by simp [Command.length]
  refine (decode_opcode_cons .hugeuintdiv256 _ hbody).trans ?_
  rw [Command.assemble, slice_first_operand, slice_second_operand_256, fromBeW_toBeW A rfl, fromBeW_toBeW B rfl]

theorem decode_hugeuintdiv (A B : U512) : decode (0x08#8 :: (toBeW A ++ toBeW B)) = .ok (.hugeuintdiv A B) :=
  decode_two_operands (c := .hugeuintdiv) rfl (fun _ => rfl) A B

/-! ## The quotient of one width (R120) -/

theorem divfloor_of_zero {W : Nat} {a b : FixedWidthUint W} (h : b.toNat = 0) :
    divfloor a b = .error .divisionByZero := by
  obtain ⟨-, hfault⟩ | ⟨hne, -⟩ := divfloor_cases a b
  · exact hfault
  · exact absurd h hne

theorem divfloor_of_ne_zero {W : Nat} {a b : FixedWidthUint W} (h : b.toNat ≠ 0) :
    ∃ Q : FixedWidthUint W, divfloor a b = .ok Q ∧ Q.toNat = a.toNat / b.toNat := by
  obtain ⟨hzero, -⟩ | ⟨-, hquotient⟩ := divfloor_cases a b
  · exact absurd hzero h
  · exact hquotient

/-! ## A computation that may fault, after its first step -/

theorem ok_bind {ε α β : Type} (a : α) (f : α → Except ε β) : (Except.ok a >>= f) = f a := rfl

theorem error_bind {ε α β : Type} (e : ε) (f : α → Except ε β) : (Except.error e >>= f) = .error e := rfl

/-! ## Quotients of natural numbers -/

/-- A quotient fits the numerator's width (R121). -/
theorem div_toNat_lt {W : Nat} (A : FixedWidthUint W) (b : Nat) : A.toNat / b < 2 ^ W :=
  Nat.lt_of_le_of_lt (Nat.div_le_self _ _) A.isLt

/-- A remainder needs a divisor above 1, so the quotient that is rounded up still fits (R122). -/
theorem div_succ_lt_of_mod_ne_zero {A : U512} {b : Nat} (hb : b ≠ 0) (hmod : A.toNat % b ≠ 0) :
    A.toNat / b + 1 < 2 ^ 512 := by
  have hA := A.isLt
  have hb1 : b ≠ 1 := fun h => hmod (by rw [h, Nat.mod_one])
  have hA0 : A.toNat ≠ 0 := fun h => hmod (by rw [h, Nat.zero_mod])
  have hlt : A.toNat / b < A.toNat := Nat.div_lt_self (by omega) (by omega)
  omega

/-- Without a remainder the floor is the least multiplier that reaches the numerator (R127). -/
theorem le_mul_iff_div_le {a b : Nat} (hb : b ≠ 0) (hmod : a % b = 0) (x : Nat) : a ≤ x * b ↔ a / b ≤ x := by
  have ha : a / b * b = a := Nat.div_mul_cancel (Nat.dvd_of_mod_eq_zero hmod)
  rw [← Nat.mul_le_mul_right_iff (Nat.pos_of_ne_zero hb) (n := a / b), ha]

/-- With a remainder no multiple is the numerator, and the least multiplier is the floor plus 1 (R127). -/
theorem le_mul_iff_div_lt {a b : Nat} (hb : b ≠ 0) (hmod : a % b ≠ 0) (x : Nat) : a ≤ x * b ↔ a / b + 1 ≤ x := by
  have hne : a ≠ x * b := fun h => hmod (by rw [h, Nat.mul_mod_left])
  rw [Nat.succ_le_iff, Nat.div_lt_iff_lt_mul (Nat.pos_of_ne_zero hb)]
  omega

/-- A quotient does not narrow exactly when the divisor is at most the numerator's high limb (R123). -/
theorem pow_le_div_iff_le_hi (A : U512) {b : Nat} (hb : b ≠ 0) : 2 ^ 256 ≤ A.toNat / b ↔ b ≤ (hi A).toNat := by
  rw [hi_toNat, Nat.le_div_iff_mul_le (Nat.pos_of_ne_zero hb), Nat.le_div_iff_mul_le (by decide), Nat.mul_comm]

theorem hi_eq_zero_iff (v : U512) : hi v = 0 ↔ v.toNat / 2 ^ 256 = 0 := by
  rw [← BitVec.toNat_inj, hi_toNat]
  rfl

/-- A 512-bit divisor is at most a limb exactly when it has no high limb and its low limb is (R124). -/
theorem toNat_le_limb_iff (B : U512) (l : U256) : B.toNat ≤ l.toNat ↔ hi B = 0 ∧ (lo B).toNat ≤ l.toNat := by
  have hlt := l.isLt
  rw [hi_eq_zero_iff, lo_toNat]
  omega

/-! ## Answering with a word -/

/-- A command whose reply is a word answers with that word's frame and changes nothing else. -/
theorem exec_of_wordReply {i : Instr} {s : State} {v : U256}
    (h : replyOf s.cfg.recipPrecheck i = .ok (wordReply v)) :
    exec i s = .next (s.answeredWith (wordResponse v.toNat)) := by
  rw [exec_eq_answer, h, answer_eq]
  rfl

/-! ## `div512` and `divup512` -/

section
variable {A B : U512}

theorem exec_div512_of_zero (h : B.toNat = 0) (s : State) :
    exec (.div512 A B) s = .next (s.answeredWith (faultResponse 0x03)) := by
  refine exec_of_faultReply (c := .divisionByZero) ?_
  rw [replyOf, replyDiv512, divfloor_of_zero h, error_bind]

theorem exec_div512_of_ne_zero (h : B.toNat ≠ 0) (s : State) :
    exec (.div512 A B) s = .next (s.answeredWith (pairResponse false (A.toNat / B.toNat))) := by
  obtain ⟨Q, hok, hQ⟩ := divfloor_of_ne_zero (a := A) h
  rw [← hQ]
  refine exec_of_pairReply ?_
  rw [replyOf, replyDiv512, hok, ok_bind]
  rfl

theorem exec_divup512_of_zero (h : B.toNat = 0) (s : State) :
    exec (.divup512 A B) s = .next (s.answeredWith (faultResponse 0x03)) := by
  refine exec_of_faultReply (c := .divisionByZero) ?_
  rw [replyOf, replyDivup512, divfloor_of_zero h, error_bind]

theorem exec_divup512_of_mod_eq_zero (h : B.toNat ≠ 0) (hmod : A.toNat % B.toNat = 0) (s : State) :
    exec (.divup512 A B) s = .next (s.answeredWith (pairResponse false (A.toNat / B.toNat))) := by
  obtain ⟨Q, hok, hQ⟩ := divfloor_of_ne_zero (a := A) h
  rw [← hQ]
  refine exec_of_pairReply ?_
  rw [replyOf, replyDivup512, hok, ok_bind, if_pos hmod]
  rfl

/-- The increment never wraps, so the answer is its number (R122, R125). -/
theorem exec_divup512_of_mod_ne_zero (h : B.toNat ≠ 0) (hmod : A.toNat % B.toNat ≠ 0) (s : State) :
    exec (.divup512 A B) s = .next (s.answeredWith (pairResponse false (A.toNat / B.toNat + 1))) := by
  obtain ⟨Q, hok, hQ⟩ := divfloor_of_ne_zero (a := A) h
  have hfits := div_succ_lt_of_mod_ne_zero h hmod
  have hsum : (addW Q 1).toNat = A.toNat / B.toNat + 1 := by
    have hone : (1 : U512).toNat = 1 := BitVec.toNat_one (w := 512) (by decide)
    rw [addW_toNat, hQ, hone, Nat.mod_eq_of_lt hfits]
  rw [← hsum]
  refine exec_of_pairReply ?_
  rw [replyOf, replyDivup512, hok, ok_bind, if_neg hmod]
  rfl

/-! ## `hugeuintdiv`, and `hugeuintdiv256` as its case of a widened divisor -/

theorem exec_hugeuintdiv_of_zero (h : B.toNat = 0) (s : State) :
    exec (.hugeuintdiv A B) s = .next (s.answeredWith (faultResponse 0x03)) := by
  refine exec_of_faultReply (c := .divisionByZero) ?_
  rw [replyOf, replyHugeuintdiv, divfloor_of_zero h, error_bind]

theorem exec_hugeuintdiv_of_ge (h : B.toNat ≠ 0) (hge : 2 ^ 256 ≤ A.toNat / B.toNat) (s : State) :
    exec (.hugeuintdiv A B) s = .next (s.answeredWith (faultResponse 0x04)) := by
  obtain ⟨Q, hok, hQ⟩ := divfloor_of_ne_zero (a := A) h
  refine exec_of_faultReply (c := .narrowingViolation) ?_
  rw [replyOf, replyHugeuintdiv, hok, ok_bind, narrow256_of_ge (hQ ▸ hge), error_bind]

theorem exec_hugeuintdiv_of_lt (h : B.toNat ≠ 0) (hlt : A.toNat / B.toNat < 2 ^ 256) (s : State) :
    exec (.hugeuintdiv A B) s = .next (s.answeredWith (wordResponse (A.toNat / B.toNat))) := by
  obtain ⟨Q, hok, hQ⟩ := divfloor_of_ne_zero (a := A) h
  obtain ⟨q, hkept, hq⟩ := narrow256_of_lt (hQ ▸ hlt)
  rw [← hQ, ← hq]
  refine exec_of_wordReply ?_
  rw [replyOf, replyHugeuintdiv, hok, ok_bind, hkept, ok_bind]
  rfl

end

/-- `hugeuintdiv256` is `hugeuintdiv` of the widened divisor (R123). -/
theorem exec_hugeuintdiv256_eq (A : U512) (B : U256) (s : State) :
    exec (.hugeuintdiv256 A B) s = exec (.hugeuintdiv A (zext 512 B)) s := rfl

/-! ## The obligations -/

/-- Settles O15: the decoder reads both operands back, and the divisor is zero or gives a quotient that fits. -/
theorem div512AnswersTheFloorQuotient : Obligations.Div512AnswersTheFloorQuotient := by
  intro A B s
  exact ⟨decode_div512 A B, fun h => exec_div512_of_ne_zero h s, fun h => exec_div512_of_zero h s⟩

/-- Settles O16: the floor, or the floor plus 1, which fits because a remainder needs a divisor above 1. -/
theorem divup512AnswersTheCeiling : Obligations.Divup512AnswersTheCeiling := by
  intro A B s
  exact ⟨decode_divup512 A B, fun h hmod => exec_divup512_of_mod_eq_zero h hmod s,
    fun h hmod => ⟨div_succ_lt_of_mod_ne_zero h hmod, exec_divup512_of_mod_ne_zero h hmod s⟩,
    fun h => exec_divup512_of_zero h s⟩

/-- Settles O17: widening keeps the divisor's number, so the command has the answers of `hugeuintdiv`. -/
theorem hugeuintdiv256AnswersTheNarrowedQuotient : Obligations.Hugeuintdiv256AnswersTheNarrowedQuotient := by
  intro A B s
  have hwide : (zext 512 B).toNat = B.toNat := zext_toNat 512 B (by decide)
  rw [exec_hugeuintdiv256_eq, ← hwide]
  exact ⟨by rw [hwide]; exact decode_hugeuintdiv256 A B, fun h => exec_hugeuintdiv_of_zero h s,
    pow_le_div_iff_le_hi A, fun h hge => exec_hugeuintdiv_of_ge h hge s, fun h hlt => exec_hugeuintdiv_of_lt h hlt s⟩

/-- Settles O18: the criterion on limbs says that the divisor is at most the numerator's high limb. -/
theorem hugeuintdivAnswersTheNarrowedQuotient : Obligations.HugeuintdivAnswersTheNarrowedQuotient := by
  intro A B s
  exact ⟨decode_hugeuintdiv A B, fun h => exec_hugeuintdiv_of_zero h s,
    fun h => (pow_le_div_iff_le_hi A h).trans (toNat_le_limb_iff B (hi A)),
    fun h hge => exec_hugeuintdiv_of_ge h hge s, fun h hlt => exec_hugeuintdiv_of_lt h hlt s⟩

/-- Settles O28: the product of quotient and divisor is at most the numerator, so neither it nor the difference wraps. -/
theorem divisionIdentityHoldsOnTheCommands : Obligations.DivisionIdentityHoldsOnTheCommands := by
  intro A B s h
  obtain ⟨Q, -, hQ⟩ := divfloor_of_ne_zero (a := A) h
  have hle : Q.toNat * B.toNat ≤ A.toNat := hQ ▸ Nat.div_mul_le_self _ _
  have hfits : Q.toNat * B.toNat < 2 ^ 512 := by
    have hA := A.isLt
    omega
  have hP : (mul512 Q B).toNat = Q.toNat * B.toNat := by rw [mul512_toNat, Nat.mod_eq_of_lt hfits]
  have hPA : (mul512 Q B).toNat ≤ A.toNat := hP ▸ hle
  have hR : (subW A (mul512 Q B)).toNat = A.toNat - (mul512 Q B).toNat := subW_toNat_of_le hPA
  refine ⟨Q, mul512 Q B, subW A (mul512 Q B), ?_, ?_, ?_, hP, hPA, ?_, ?_⟩
  · rw [hQ, exec_div512_of_ne_zero h]
  · rw [exec_hugeuintmul, mulTruncates, decide_eq_false (Nat.not_le.mpr hfits)]
  · rw [exec_hugeuintsub, subTruncates, decide_eq_false (Nat.not_lt.mpr hPA)]
  · rw [hR, hP, hQ, Nat.mod_eq_sub_div_mul]
  · rw [hR, Nat.add_sub_cancel' hPA]

/-- Settles O29: whether a remainder is left decides both what `divup512` answers and which multiplier is the least. -/
theorem ceilingIsTheLeastMultiplierReachingTheNumerator :
    Obligations.CeilingIsTheLeastMultiplierReachingTheNumerator := by
  intro A B s h
  have hq : A.toNat / B.toNat < 2 ^ 512 := div_toNat_lt A B.toNat
  by_cases hmod : A.toNat % B.toNat = 0
  · exact ⟨_, _, hq, hq, exec_div512_of_ne_zero h s, exec_divup512_of_mod_eq_zero h hmod s, fun _ => rfl,
      fun hne => absurd hmod hne, le_mul_iff_div_le h hmod⟩
  · exact ⟨_, _, hq, div_succ_lt_of_mod_ne_zero h hmod, exec_div512_of_ne_zero h s,
      exec_divup512_of_mod_ne_zero h hmod s, fun hz => absurd hz hmod, fun _ => rfl, le_mul_iff_div_lt h hmod⟩

end Sys2Proof

/-!
PROOF. The leading-zero count (R140, R141): the count and the number's size, its length in bits, make up the 256 bits.
The byte scan keeps the same sum for a string of any length, so that it gives the same count.
-/

namespace Sys2Proof

open Machine

/-! ## The size of a number -/

/-- A number with its highest set bit at `k` has `k + 1` bits. -/
theorem size_eq_succ {n k : Nat} (hge : 2 ^ k ≤ n) (hlt : n < 2 ^ (k + 1)) : n.size = k + 1 :=
  Nat.le_antisymm (Nat.size_le.mpr hlt) (Nat.lt_size.mpr hge)

theorem size_eq_log2_succ {n : Nat} (h : n ≠ 0) : n.size = n.log2 + 1 :=
  size_eq_succ (Nat.log2_self_le h) Nat.lt_log2_self

/-- Behind a non-zero number, `k` more bits count in full. -/
theorem size_mul_two_pow_add {a r k : Nat} (ha : a ≠ 0) (hr : r < 2 ^ k) : (a * 2 ^ k + r).size = a.size + k := by
  have hlow : (a * 2 ^ k).size = a.size + k := by rw [← Nat.shiftLeft_eq, Nat.size_shiftLeft ha]
  refine Nat.le_antisymm (Nat.size_le.mpr ?_) (hlow ▸ Nat.size_le_size (Nat.le_add_right _ r))
  calc a * 2 ^ k + r < (a + 1) * 2 ^ k := by rw [Nat.succ_mul]; exact Nat.add_lt_add_left hr _
    _ ≤ 2 ^ a.size * 2 ^ k := Nat.mul_le_mul_right _ (Nat.lt_size_self a)
    _ = 2 ^ (a.size + k) := (pow_add 2 a.size k).symm

/-! ## The count of R140 -/

theorem clzCount_add_size (A : U256) : clzCount A + A.toNat.size = 256 := by
  by_cases hA : A.toNat = 0
  · rw [clzCount, if_pos hA, hA, Nat.size_zero]
  · have hsize : A.toNat.size ≤ 256 := Nat.size_le.mpr A.isLt
    rw [size_eq_log2_succ hA] at hsize ⊢
    rw [clzCount, if_neg hA]
    omega

theorem clzCount_of_zero {A : U256} (h : A.toNat = 0) : clzCount A = 256 := if_pos h

theorem clzCount_add_of_bounds {A : U256} {k : Nat} (hge : 2 ^ k ≤ A.toNat) (hlt : A.toNat < 2 ^ (k + 1)) :
    clzCount A + k = 255 := by
  have hsum := clzCount_add_size A
  rw [size_eq_succ hge hlt] at hsum
  exact Nat.succ.inj hsum

/-! ## The command -/

/-- A command that is assembled from one operand is read back from the frame that carries it (R62, R66). -/
theorem decode_one_operand {W : Nat} {c : Command} {mk : FixedWidthUint W → Instr} (hW : 8 * (W / 8) = W)
    (hlen : c.length = W / 8 + 1) (hmk : ∀ cmd, c.assemble cmd = mk (fromBeW W (slice cmd 1 (W / 8 + 1))))
    (A : FixedWidthUint W) : decode (c.opcode :: toBeW A) = .ok (mk A) := by
  have hbody : (toBeW A).length + 1 = c.length := by rw [toBeW_length, hlen]
  have hslice : slice (c.opcode :: toBeW A) 1 (W / 8 + 1) = toBeW A := by
    simpa [Nat.add_comm] using slice_append_middle [c.opcode] (toBeW A) []
  rw [decode_opcode_cons c _ hbody, hmk, hslice, fromBeW_toBeW A hW]

theorem decode_hugeuintclz (A : U256) : decode (0x09#8 :: toBeW A) = .ok (.hugeuintclz A) :=
  decode_one_operand (c := .hugeuintclz) rfl rfl (fun _ => rfl) A

/-- The count is at most 256, so the word that carries it is its number (R140, R74). -/
theorem exec_hugeuintclz (A : U256) (s : State) :
    exec (.hugeuintclz A) s = .next (s.answeredWith (wordResponse (clzCount A))) := by
  have hfits : (BitVec.ofNat 256 (clzCount A)).toNat = clzCount A := by
    have hsum := clzCount_add_size A
    rw [BitVec.toNat_ofNat, Nat.mod_eq_of_lt (by omega)]
  calc exec (.hugeuintclz A) s
      = .next (s.answeredWith (wordResponse (BitVec.ofNat 256 (clzCount A)).toNat)) := exec_of_wordReply rfl
    _ = .next (s.answeredWith (wordResponse (clzCount A))) := by rw [hfits]

/-! ## The byte scan of R141 -/

/-- The table's thresholds are the powers of two, and a byte reaches `2^k` exactly when it has more than `k` bits. -/
theorem clz8_add_size {b : Byte} (hb : b.toNat ≠ 0) : clz8 b + b.toNat.size = 8 := by
  have hpos : 0 < b.toNat.size := Nat.size_pos.mpr (Nat.pos_of_ne_zero hb)
  have hle : b.toNat.size ≤ 8 := Nat.size_le.mpr b.isLt
  have hreach (k : Nat) : 2 ^ k ≤ b.toNat ↔ k < b.toNat.size := Nat.lt_size.symm
  have h80 : 0x80 ≤ b.toNat ↔ 7 < b.toNat.size := hreach 7
  have h40 : 0x40 ≤ b.toNat ↔ 6 < b.toNat.size := hreach 6
  have h20 : 0x20 ≤ b.toNat ↔ 5 < b.toNat.size := hreach 5
  have h10 : 0x10 ≤ b.toNat ↔ 4 < b.toNat.size := hreach 4
  have h08 : 0x08 ≤ b.toNat ↔ 3 < b.toNat.size := hreach 3
  have h04 : 0x04 ≤ b.toNat ↔ 2 < b.toNat.size := hreach 2
  have h02 : 0x02 ≤ b.toNat ↔ 1 < b.toNat.size := hreach 1
  simp only [clz8, h80, h40, h20, h10, h08, h04, h02]
  split_ifs <;> omega

/-- The scan's answer and the size of the bytes scanned make up the bits passed and the bits to come. -/
theorem byteScanFrom_add_size (j : Nat) (s : Frame) : byteScanFrom j s + (fromBe s).size = 8 * (j + s.length) := by
  induction s generalizing j with
  | nil => rfl
  | cons b s ih =>
    rw [List.length_cons, fromBe_cons, byteScanFrom]
    by_cases hb : b = 0x00#8
    · have hrest := ih (j + 1)
      rw [if_pos hb, hb, BitVec.toNat_zero, Nat.zero_mul, Nat.zero_add]
      omega
    · have hne : b.toNat ≠ 0 := fun h => hb (BitVec.eq_of_toNat_eq h)
      have hbyte := clz8_add_size hne
      have hlt := fromBe_lt s
      rw [pow_256_eq] at hlt ⊢
      rw [if_neg hb, size_mul_two_pow_add hne hlt]
      omega

theorem byteScan_add_size (A : U256) : byteScan A + A.toNat.size = 256 := by
  have hvalue : fromBe (toBeW A) = A.toNat := by rw [← fromBeW_toNat 256 _ (by simp), fromBeW_toBeW A rfl]
  have hscan := byteScanFrom_add_size 0 (toBeW A)
  rwa [hvalue, toBeW_length] at hscan

/-! ## The obligations -/

/-- Settles O19: the highest set bit's position and the count add up to 255. -/
theorem hugeuintclzAnswersTheLeadingZeroCount : Obligations.HugeuintclzAnswersTheLeadingZeroCount := by
  intro A s
  refine ⟨decode_hugeuintclz A, fun hzero => ?_, fun k hge hlt => ?_⟩
  · rw [exec_hugeuintclz, clzCount_of_zero hzero]
  · have hsum := clzCount_add_of_bounds hge hlt
    have hcount : clzCount A = 255 - k := by omega
    rw [exec_hugeuintclz, hcount]
    exact ⟨by omega, rfl⟩

/-- Settles O37: the scan and the count both make up 256 bits with the operand's size. -/
theorem byteScanGivesTheLeadingZeroCount : Obligations.ByteScanGivesTheLeadingZeroCount := by
  intro A
  exact Nat.add_right_cancel ((byteScan_add_size A).trans (clzCount_add_size A).symm)

end Sys2Proof

/-!
PROOF. The reciprocals (R150 to R156), for a divisor of any width `V = k + 1` and the next wider width `W = V + 256`:
what the one division gives is arithmetic of natural numbers, the divisor's range decides whether it narrows, and the
two commands are the widths 256 and 512.
-/

namespace Sys2Proof

open Machine

/-! ## The quotient of the maximal value (R150) -/

section
variable {V W : Nat} {d : FixedWidthUint V} (hW : W = V + 256)
include hW

/-- The subtraction of R150 never wraps. -/
theorem pow_le_max_div (hpos : 0 < d.toNat) : 2 ^ 256 ≤ (2 ^ W - 1) / d.toNat := by
  have hmul : 2 ^ 256 * d.toNat < 2 ^ W := by
    rw [hW, pow_add, Nat.mul_comm]
    exact Nat.mul_lt_mul_of_pos_right d.isLt (by positivity)
  rw [Nat.le_div_iff_mul_le hpos]
  exact Nat.le_sub_one_of_lt hmul

/-- The number of R150 and `2^256` are together the floor quotient, whence the bounds of R155 and R156. -/
theorem max_div_bounds (hpos : 0 < d.toNat) :
    ((2 ^ W - 1) / d.toNat - 2 ^ 256 + 2 ^ 256) * d.toNat ≤ 2 ^ W - 1 ∧
    2 ^ W - 1 < ((2 ^ W - 1) / d.toNat - 2 ^ 256 + 2 ^ 256 + 1) * d.toNat := by
  rw [Nat.sub_add_cancel (pow_le_max_div hW hpos)]
  exact ⟨Nat.div_mul_le_self _ _, by rw [Nat.mul_comm]; exact Nat.lt_mul_div_succ _ hpos⟩

/-- The quotient less `2^256` narrows exactly when the divisor's top bit, bit `k`, is set (R151, R152). -/
theorem max_div_sub_lt_iff {k : Nat} (hV : V = k + 1) (hpos : 0 < d.toNat) :
    (2 ^ W - 1) / d.toNat - 2 ^ 256 < 2 ^ 256 ↔ 2 ^ k ≤ d.toNat := by
  have hsplit : 2 ^ W = 2 ^ 257 * 2 ^ k := by
    rw [← pow_add]
    congr 1
    omega
  calc (2 ^ W - 1) / d.toNat - 2 ^ 256 < 2 ^ 256
      ↔ (2 ^ W - 1) / d.toNat < 2 ^ 257 := by omega
    _ ↔ 2 ^ W ≤ 2 ^ 257 * d.toNat := by
        rw [Nat.div_lt_iff_lt_mul hpos, Nat.sub_lt_iff_lt_add Nat.one_le_two_pow, Nat.lt_add_one_iff]
    _ ↔ 2 ^ k ≤ d.toNat := by rw [hsplit, Nat.mul_le_mul_left_iff (by positivity)]

end

/-- A divisor of 256 bits leaves a number above 0, because `(2^256 + 1) * (2^256 - 1)` is the maximal value (R151). -/
theorem one_le_max_div_sub {d : U256} (hpos : 0 < d.toNat) : 1 ≤ (2 ^ 512 - 1) / d.toNat - 2 ^ 256 := by
  have hlt := d.isLt
  have hquot : 2 ^ 256 + 1 ≤ (2 ^ 512 - 1) / d.toNat := by
    rw [Nat.le_div_iff_mul_le hpos]
    omega
  exact Nat.le_sub_of_add_le' hquot

/-! ## `recip` and the reply, for a divisor of any width -/

theorem maxW_toNat (W : Nat) : (maxW W).toNat = 2 ^ W - 1 := by
  rw [maxW, BitVec.toNat_ofNat, Nat.mod_eq_of_lt (Nat.sub_one_lt (by positivity))]

section
variable {k V W : Nat} {d : FixedWidthUint V} (hW : W = V + 256) (hV : V = k + 1)

theorem recip_of_zero (h : d.toNat = 0) : recip d = .error .divisionByZero := by
  rw [recip, divfloor_of_zero (by rw [zext_toNat _ _ (by omega), h]), error_bind]

theorem replyRecip_of_zero (precheck : Bool) (h : d.toNat = 0) :
    replyRecip precheck d = .error .divisionByZero := by
  rw [replyRecip, if_pos h]

include hW

/-- For a divisor that is not zero, `recip` narrows the quotient less `2^256` (R150). -/
theorem recip_eq_narrow256 (h : d.toNat ≠ 0) :
    ∃ v : FixedWidthUint W, recip d = narrow256 v ∧ v.toNat = (2 ^ W - 1) / d.toNat - 2 ^ 256 := by
  subst hW
  have hV : V ≠ 0 := fun hV => h (BitVec.toNat_of_zero_length hV d)
  have hwide : (zext (V + 256) d).toNat = d.toNat := zext_toNat _ _ (by omega)
  obtain ⟨Q, hok, hQ⟩ := divfloor_of_ne_zero (a := maxW (V + 256)) (hwide.symm ▸ h)
  rw [hwide, maxW_toNat] at hQ
  have hone : (BitVec.ofNat (V + 256) (2 ^ 256)).toNat = 2 ^ 256 := by
    rw [BitVec.toNat_ofNat, Nat.mod_eq_of_lt (Nat.pow_lt_pow_right (by decide) (by omega))]
  have hle : (BitVec.ofNat (V + 256) (2 ^ 256)).toNat ≤ Q.toNat := by
    rw [hone, hQ]
    exact pow_le_max_div rfl (Nat.pos_of_ne_zero h)
  refine ⟨subW Q (BitVec.ofNat (V + 256) (2 ^ 256)), ?_, ?_⟩
  · rw [recip, hok, ok_bind]
  · rw [subW_toNat_of_le hle, hone, hQ]

theorem recip_of_ge (h : d.toNat ≠ 0) (hge : 2 ^ 256 ≤ (2 ^ W - 1) / d.toNat - 2 ^ 256) :
    recip d = .error .narrowingViolation := by
  obtain ⟨v, hrecip, hv⟩ := recip_eq_narrow256 hW h
  rw [hrecip, narrow256_of_ge (hv ▸ hge)]

theorem recip_of_lt (h : d.toNat ≠ 0) (hlt : (2 ^ W - 1) / d.toNat - 2 ^ 256 < 2 ^ 256) :
    recip d = .ok (BitVec.ofNat 256 ((2 ^ W - 1) / d.toNat - 2 ^ 256)) := by
  obtain ⟨v, hrecip, hv⟩ := recip_eq_narrow256 hW h
  obtain ⟨r, hkept, hr⟩ := narrow256_of_lt (hv ▸ hlt)
  rw [hrecip, hkept, ← hv, ← hr, BitVec.ofNat_toNat, BitVec.setWidth_eq]

include hV

/-- From the range's lower end on, the reply is the word of R150 under both settings of the parameter. -/
theorem replyRecip_of_ge (precheck : Bool) (hge : 2 ^ k ≤ d.toNat) :
    replyRecip precheck d = .ok (wordReply (BitVec.ofNat 256 ((2 ^ W - 1) / d.toNat - 2 ^ 256))) := by
  have hpos : 0 < d.toNat := lt_of_lt_of_le (by positivity) hge
  have hk : V - 1 = k := by omega
  have hfits := (max_div_sub_lt_iff hW hV hpos).mpr hge
  rw [replyRecip, if_neg hpos.ne', hk, decide_eq_false (Nat.not_lt.mpr hge), Bool.and_false,
    recip_of_lt hW hpos.ne' hfits, ok_bind]
  rfl

omit hW

/-- Below the range the fault is the range test's where the unit has it, and the narrowing's where not (R154). -/
theorem replyRecip_of_lt (precheck : Bool) (hpos : 0 < d.toNat) (hlt : d.toNat < 2 ^ k) :
    replyRecip precheck d = .error (if precheck then .preconditionViolation else .narrowingViolation) := by
  have hk : V - 1 = k := by omega
  rw [replyRecip, if_neg hpos.ne', hk, decide_eq_true hlt, Bool.and_true]
  cases precheck with
  | true => rfl
  | false =>
    have hwide : 2 ^ 256 ≤ (2 ^ (V + 256) - 1) / d.toNat - 2 ^ 256 :=
      Nat.le_of_not_lt fun hfits => Nat.not_le.mpr hlt ((max_div_sub_lt_iff rfl hV hpos).mp hfits)
    rw [recip_of_ge rfl hpos.ne' hwide, error_bind]
    rfl

end

/-! ## A command that replies with the reciprocal of its operand -/

section
variable {k V W : Nat} {d : FixedWidthUint V} {i : Instr}
  (hi : ∀ precheck, replyOf precheck i = replyRecip precheck d) (hV : V = k + 1) (hW : W = V + 256)
include hi

theorem exec_recip_of_zero (h : d.toNat = 0) (s : State) :
    exec i s = .next (s.answeredWith (faultResponse 0x03)) :=
  exec_of_faultReply (c := .divisionByZero) ((hi _).trans (replyRecip_of_zero _ h))

include hV

theorem exec_recip_of_lt_precheck (hpos : 0 < d.toNat) (hlt : d.toNat < 2 ^ k) {s : State}
    (hs : s.cfg.recipPrecheck = true) : exec i s = .next (s.answeredWith (faultResponse 0x05)) := by
  refine exec_of_faultReply (c := .preconditionViolation) ?_
  rw [hi, replyRecip_of_lt hV _ hpos hlt, hs, if_pos rfl]

theorem exec_recip_of_lt_noPrecheck (hpos : 0 < d.toNat) (hlt : d.toNat < 2 ^ k) {s : State}
    (hs : s.cfg.recipPrecheck = false) : exec i s = .next (s.answeredWith (faultResponse 0x04)) := by
  refine exec_of_faultReply (c := .narrowingViolation) ?_
  rw [hi, replyRecip_of_lt hV _ hpos hlt, hs, if_neg Bool.false_ne_true]

include hW

/-- In the range the number fits the word of the answer, which is the same in every state. -/
theorem exec_recip_of_ge (hge : 2 ^ k ≤ d.toNat) :
    (2 ^ W - 1) / d.toNat - 2 ^ 256 < 2 ^ 256 ∧
    ∀ s : State, exec i s = .next (s.answeredWith (wordResponse ((2 ^ W - 1) / d.toNat - 2 ^ 256))) := by
  have hpos : 0 < d.toNat := lt_of_lt_of_le (by positivity) hge
  have hfits := (max_div_sub_lt_iff hW hV hpos).mpr hge
  refine ⟨hfits, fun s => ?_⟩
  rw [exec_of_wordReply ((hi _).trans (replyRecip_of_ge hW hV _ hge)), BitVec.toNat_ofNat, Nat.mod_eq_of_lt hfits]

end

/-! ## The two commands -/

theorem decode_hugeuintreciprocal (A : U256) : decode (0x0A#8 :: toBeW A) = .ok (.hugeuintreciprocal A) :=
  decode_one_operand (c := .hugeuintreciprocal) rfl rfl (fun _ => rfl) A

theorem decode_hugeuintreciprocal2 (A : U512) : decode (0x0B#8 :: toBeW A) = .ok (.hugeuintreciprocal2 A) :=
  decode_one_operand (c := .hugeuintreciprocal2) rfl rfl (fun _ => rfl) A

theorem replyOf_hugeuintreciprocal (A : U256) (precheck : Bool) :
    replyOf precheck (.hugeuintreciprocal A) = replyRecip precheck A := rfl

theorem replyOf_hugeuintreciprocal2 (A : U512) (precheck : Bool) :
    replyOf precheck (.hugeuintreciprocal2 A) = replyRecip precheck A := rfl

/-- The range of `hugeuintreciprocal2`, on the high limb and on the number (R152). -/
theorem pow_le_hi_iff (A : U512) : 2 ^ 255 ≤ (hi A).toNat ↔ 2 ^ 511 ≤ A.toNat := by
  rw [hi_toNat]
  omega

/-! ## The obligations -/

/-- Settles O20: the case of 256 bits, where the number is at least 1. -/
theorem hugeuintreciprocalAnswersTheSeed : Obligations.HugeuintreciprocalAnswersTheSeed := by
  intro A s
  have hi := replyOf_hugeuintreciprocal A
  refine ⟨decode_hugeuintreciprocal A, fun h => exec_recip_of_zero hi h s,
    fun hpos hlt hs => exec_recip_of_lt_precheck hi rfl hpos hlt hs,
    fun hpos hlt hs => exec_recip_of_lt_noPrecheck hi rfl hpos hlt hs, fun hge => ?_⟩
  obtain ⟨hfits, hexec⟩ := exec_recip_of_ge hi rfl (W := 512) rfl hge
  exact ⟨one_le_max_div_sub (by omega), hfits, hexec s⟩

/-- Settles O21: the case of 512 bits, whose range the high limb decides. -/
theorem hugeuintreciprocal2AnswersTheSeed : Obligations.Hugeuintreciprocal2AnswersTheSeed := by
  intro A s
  have hi := replyOf_hugeuintreciprocal2 A
  refine ⟨decode_hugeuintreciprocal2 A, pow_le_hi_iff A, fun h => exec_recip_of_zero hi h s,
    fun hpos hlt hs => exec_recip_of_lt_precheck hi rfl hpos hlt hs,
    fun hpos hlt hs => exec_recip_of_lt_noPrecheck hi rfl hpos hlt hs, fun hge => ?_⟩
  obtain ⟨hfits, hexec⟩ := exec_recip_of_ge hi rfl (W := 768) rfl hge
  exact ⟨pow_le_max_div rfl (by omega), hfits, hexec s⟩

/-- Settles O30: in the range of each command its answer and `2^256` are together the floor quotient. -/
theorem reciprocalBounds : Obligations.ReciprocalBounds := by
  refine ⟨fun d hge => ?_, fun d hge => ?_⟩
  · obtain ⟨hfits, hexec⟩ := exec_recip_of_ge (replyOf_hugeuintreciprocal d) rfl (W := 512) rfl hge
    exact ⟨_, hfits, hexec, max_div_bounds rfl (by omega)⟩
  · obtain ⟨hfits, hexec⟩ := exec_recip_of_ge (replyOf_hugeuintreciprocal2 d) rfl (W := 768) rfl hge
    exact ⟨_, hfits, hexec, max_div_bounds rfl (by omega)⟩

/-- Settles O31: both widths are instances of what `recip` does at any width. -/
theorem recipIsOneDivisionLess2To256 : Obligations.RecipIsOneDivisionLess2To256 :=
  ⟨fun _ => ⟨recip_of_zero, fun h => pow_le_max_div rfl (Nat.pos_of_ne_zero h), recip_of_ge rfl, recip_of_lt rfl⟩,
   fun _ => ⟨recip_of_zero, fun h => pow_le_max_div rfl (Nat.pos_of_ne_zero h), recip_of_ge rfl, recip_of_lt rfl⟩⟩

end Sys2Proof

/-!
PROOF. Decode faults (R65, R67, R172, R173): the opcodes of the map are the numbers 1 to 11, so that any other opcode
byte selects no command, and one of them behind which the length is wrong selects a command that is not assembled.
-/

namespace Sys2Proof

open Machine

/-! ## The opcodes of the map (R64) -/

theorem opcodeTable_opcodes : opcodeTable.map (·.command.opcode.toNat) = List.range' 1 11 := rfl

/-- Every row matches the whole opcode byte of its command. -/
theorem eq_opcode_of_selects {r : OpcodeRow} {op : Byte} (hr : r ∈ opcodeTable) (h : r.selects op = true) :
    op = r.command.opcode := by
  have hrow : ∀ r ∈ opcodeTable, r.mask = BitVec.allOnes 8 ∧ r.pattern = r.command.opcode := by decide
  obtain ⟨hmask, hpattern⟩ := hrow r hr
  rw [OpcodeRow.selects, hmask, hpattern, BitVec.and_allOnes] at h
  exact eq_of_beq h

/-- Opcodes 0x00 and 0x0C to 0xFF select no command (R67). -/
theorem ofOpcode_of_reserved {op : Byte} (h : op.toNat = 0 ∨ 0x0C ≤ op.toNat) : Command.ofOpcode op = none := by
  rw [Command.ofOpcode, Option.map_eq_none_iff, List.find?_eq_none]
  intro r hr hsel
  have hmem : op.toNat ∈ List.range' 1 11 := by
    rw [← opcodeTable_opcodes, eq_opcode_of_selects hr hsel]
    exact List.mem_map_of_mem hr
  rw [List.mem_range'_1] at hmem
  omega

/-- Opcodes 0x01 to 0x0B belong to commands. -/
theorem exists_command_of_opcode {op : Byte} (hge : 1 ≤ op.toNat) (hle : op.toNat ≤ 11) :
    ∃ c : Command, c.opcode = op := by
  have hmem : op.toNat ∈ opcodeTable.map (·.command.opcode.toNat) := by
    rw [opcodeTable_opcodes, List.mem_range'_1]
    omega
  obtain ⟨r, -, hr⟩ := List.mem_map.mp hmem
  exact ⟨r.command, BitVec.eq_of_toNat_eq hr⟩

/-- `LEN(OP)`, from the number of the opcode (R61, R64). -/
theorem length_cases (c : Command) :
    (1 ≤ c.opcode.toNat ∧ c.opcode.toNat ≤ 6 ∨ c.opcode.toNat = 8) ∧ c.length = 129 ∨
    c.opcode.toNat = 7 ∧ c.length = 97 ∨
    (c.opcode.toNat = 9 ∨ c.opcode.toNat = 10) ∧ c.length = 33 ∨
    c.opcode.toNat = 11 ∧ c.length = 65 := by
  cases c <;> decide

/-! ## The faults of the decoder (R65) -/

theorem decode_nil : decode [] = .error .malformedInput := rfl

theorem decode_reserved_cons {op : Byte} (h : op.toNat = 0 ∨ 0x0C ≤ op.toNat) (operands : Frame) :
    decode (op :: operands) = .error .illegalCommand := by
  simp only [decode, ofOpcode_of_reserved h]

/-- A frame of another length than its command's is malformed, whatever the operand bytes. -/
theorem decode_opcode_cons_of_ne (c : Command) {operands : Frame} (h : operands.length + 1 ≠ c.length) :
    decode (c.opcode :: operands) = .error .malformedInput := by
  simp only [decode, ofOpcode_opcode, List.length_cons, if_neg h]

/-- A frame the decoder rejects is answered with the frame of its fault, and nothing else changes (R176). -/
theorem runFrame_of_decode_error {cmd : Frame} {c : Cause} (h : decode cmd = .error c) (s : State) :
    s.runFrame cmd = .next (s.answeredWith (faultFrame c)) := by
  rw [runFrame_eq, responseTo, h]

/-! ## The obligations -/

/-- Settles O38: no row of the opcode map selects a reserved opcode, so the decoder looks no further. -/
theorem reservedOpcodeIsAnsweredIllegalCommand : Obligations.ReservedOpcodeIsAnsweredIllegalCommand := by
  intro s op operands h
  exact runFrame_of_decode_error (decode_reserved_cons h operands) s

/-- Settles O39: a valid opcode is that of a command, whose length the opcode's number gives. -/
theorem wrongLengthIsAnsweredMalformedInput : Obligations.WrongLengthIsAnsweredMalformedInput := by
  refine ⟨runFrame_of_decode_error decode_nil, fun s op operands h => ?_⟩
  obtain ⟨c, rfl⟩ := exists_command_of_opcode (op := op) (by omega) (by omega)
  have hlen := length_cases c
  have hne : operands.length + 1 ≠ c.length := by omega
  exact runFrame_of_decode_error (decode_opcode_cons_of_ne c hne) s

end Sys2Proof

/-!
PROOF. The round trip of frames (R60, R62, R64 to R66): the decoder reads back what the encoder wrote, and every frame
of the right length behind a command's opcode is written by the encoder, so that nothing of a decoded frame is lost.
-/

namespace Sys2Proof

open Machine

/-! ## The frame of a command -/

theorem encode_of_two_operands {i : Instr} {a b : Frame} (h : i.operandBytes = [a, b]) :
    encode i = i.command.opcode :: (a ++ b) := by
  rw [encode, Descriptor.frame, Instr.descriptor, h, List.flatten_cons, List.flatten_cons, List.flatten_nil,
    List.append_nil]

theorem encode_of_one_operand {i : Instr} {a : Frame} (h : i.operandBytes = [a]) :
    encode i = i.command.opcode :: a := by
  rw [encode, Descriptor.frame, Instr.descriptor, h, List.flatten_cons, List.flatten_nil, List.append_nil]

/-! ## Operand bytes as the canonical forms of their values -/

/-- A string of the operands' lengths is made of the canonical forms of two values (R33). -/
theorem exists_two_operands {V W : Nat} {body : Frame} (hV : 8 * (V / 8) = V) (hW : 8 * (W / 8) = W)
    (hlen : body.length = V / 8 + W / 8) :
    ∃ (A : FixedWidthUint V) (B : FixedWidthUint W), toBeW A ++ toBeW B = body := by
  refine ⟨fromBeW V (body.take (V / 8)), fromBeW W (body.drop (V / 8)), ?_⟩
  rw [toBeW_fromBeW V _ (by simp; omega), toBeW_fromBeW W _ (by simp; omega), List.take_append_drop]

/-- Every body of the right length is the operands of a command with that opcode (R37, R62). -/
theorem exists_encode_eq (c : Command) {body : Frame} (hlen : body.length + 1 = c.length) :
    ∃ i, encode i = c.opcode :: body := by
  have two (mk : U512 → U512 → Instr) (hc : ∀ A B, (mk A B).command = c)
      (hops : ∀ A B, (mk A B).operandBytes = [toBeW A, toBeW B]) (h : c.length = 129) :
      ∃ i, encode i = c.opcode :: body := by
    obtain ⟨A, B, rfl⟩ := exists_two_operands (V := 512) (W := 512) (body := body) rfl rfl (by omega)
    exact ⟨mk A B, by rw [encode_of_two_operands (hops A B), hc]⟩
  have one {W : Nat} (hW : 8 * (W / 8) = W) (mk : FixedWidthUint W → Instr) (hc : ∀ A, (mk A).command = c)
      (hops : ∀ A, (mk A).operandBytes = [toBeW A]) (h : c.length = W / 8 + 1) :
      ∃ i, encode i = c.opcode :: body := by
    refine ⟨mk (fromBeW W body), ?_⟩
    rw [encode_of_one_operand (hops _), hc, toBeW_fromBeW W body (by omega)]
  cases c with
  | div512 => exact two .div512 (fun _ _ => rfl) (fun _ _ => rfl) rfl
  | divup512 => exact two .divup512 (fun _ _ => rfl) (fun _ _ => rfl) rfl
  | hugeuintadd => exact two .hugeuintadd (fun _ _ => rfl) (fun _ _ => rfl) rfl
  | hugeuintsub => exact two .hugeuintsub (fun _ _ => rfl) (fun _ _ => rfl) rfl
  | hugeuintmul256 => exact two .hugeuintmul256 (fun _ _ => rfl) (fun _ _ => rfl) rfl
  | hugeuintmul => exact two .hugeuintmul (fun _ _ => rfl) (fun _ _ => rfl) rfl
  | hugeuintdiv256 =>
    obtain ⟨A, B, rfl⟩ := exists_two_operands (V := 512) (W := 256) (body := body) rfl rfl (Nat.succ.inj hlen)
    exact ⟨.hugeuintdiv256 A B, encode_of_two_operands rfl⟩
  | hugeuintdiv => exact two .hugeuintdiv (fun _ _ => rfl) (fun _ _ => rfl) rfl
  | hugeuintclz => exact one rfl .hugeuintclz (fun _ => rfl) (fun _ => rfl) rfl
  | hugeuintreciprocal => exact one rfl .hugeuintreciprocal (fun _ => rfl) (fun _ => rfl) rfl
  | hugeuintreciprocal2 => exact one rfl .hugeuintreciprocal2 (fun _ => rfl) (fun _ => rfl) rfl

/-! ## The decoder -/

/-- The command an opcode byte selects is the one with that opcode (R64). -/
theorem eq_opcode_of_ofOpcode {op : Byte} {c : Command} (h : Command.ofOpcode op = some c) : op = c.opcode := by
  obtain ⟨r, hr, rfl⟩ := Option.map_eq_some_iff.mp h
  exact eq_opcode_of_selects (List.mem_of_find?_eq_some hr) (List.find?_some (p := fun r => OpcodeRow.selects r op) hr)

/-- A frame that decodes is a command's opcode and as many bytes as that command has (R65). -/
theorem eq_opcode_cons_of_decode {cmd : Frame} {i : Instr} (h : decode cmd = .ok i) :
    ∃ (c : Command) (body : Frame), cmd = c.opcode :: body ∧ body.length + 1 = c.length := by
  cases cmd with
  | nil => cases h
  | cons op body =>
    simp only [decode] at h
    split at h
    · cases h
    · next c hc =>
      split at h
      · next hlen => exact ⟨c, body, by rw [eq_opcode_of_ofOpcode hc], hlen⟩
      · cases h

theorem decode_encode (i : Instr) : decode (encode i) = .ok i := by
  cases i with
  | div512 A B => rw [encode_of_two_operands rfl]; exact decode_div512 A B
  | divup512 A B => rw [encode_of_two_operands rfl]; exact decode_divup512 A B
  | hugeuintadd A B => rw [encode_of_two_operands rfl]; exact decode_hugeuintadd A B
  | hugeuintsub A B => rw [encode_of_two_operands rfl]; exact decode_hugeuintsub A B
  | hugeuintmul256 A B => rw [encode_of_two_operands rfl]; exact decode_hugeuintmul256 A B
  | hugeuintmul A B => rw [encode_of_two_operands rfl]; exact decode_hugeuintmul A B
  | hugeuintdiv256 A B => rw [encode_of_two_operands rfl]; exact decode_hugeuintdiv256 A B
  | hugeuintdiv A B => rw [encode_of_two_operands rfl]; exact decode_hugeuintdiv A B
  | hugeuintclz A => rw [encode_of_one_operand rfl]; exact decode_hugeuintclz A
  | hugeuintreciprocal A => rw [encode_of_one_operand rfl]; exact decode_hugeuintreciprocal A
  | hugeuintreciprocal2 A => rw [encode_of_one_operand rfl]; exact decode_hugeuintreciprocal2 A

/-! ## The obligations -/

/-- Settles O2: the frame of each command carries the canonical forms of its operands, which the decoder reads back. -/
theorem decodeOfEncodeIsTheCommand : Obligations.DecodeOfEncodeIsTheCommand := decode_encode

/-- Settles O3: the frame is the encoding of some command, and the decoder gives no other one for it. -/
theorem encodeOfDecodeIsTheFrame : Obligations.EncodeOfDecodeIsTheFrame := by
  intro cmd i hi
  obtain ⟨c, body, rfl, hlen⟩ := eq_opcode_cons_of_decode hi
  obtain ⟨j, hj⟩ := exists_encode_eq c hlen
  rw [← hj, decode_encode] at hi
  cases hi
  exact hj

/-- Settles O4: operand bytes are the canonical form of their value, so the frame is one the decoder reads back. -/
theorem operandsAreTheBigEndianValuesOfTheirSlices : Obligations.OperandsAreTheBigEndianValuesOfTheirSlices := by
  intro a b c ha hb hc
  obtain ⟨A, rfl⟩ : ∃ A : U512, toBeW A = a := ⟨fromBeW 512 a, toBeW_fromBeW 512 a (by omega)⟩
  obtain ⟨B, rfl⟩ : ∃ B : U512, toBeW B = b := ⟨fromBeW 512 b, toBeW_fromBeW 512 b (by omega)⟩
  obtain ⟨C, rfl⟩ : ∃ C : U256, toBeW C = c := ⟨fromBeW 256 c, toBeW_fromBeW 256 c (by omega)⟩
  rw [fromBeW_toBeW A rfl, fromBeW_toBeW B rfl, fromBeW_toBeW C rfl]
  exact ⟨decode_div512 A B, decode_divup512 A B, decode_hugeuintadd A B, decode_hugeuintsub A B,
    decode_hugeuintmul256 A B, decode_hugeuintmul A B, decode_hugeuintdiv256 A C, decode_hugeuintdiv A B,
    decode_hugeuintclz C, decode_hugeuintreciprocal C, decode_hugeuintreciprocal2 A⟩

/-- Settles O1: each written frame is the opcode and the canonical forms of the operands. -/
theorem writtenFramesDecodeToTheirCommands : Obligations.WrittenFramesDecodeToTheirCommands := by
  refine ⟨?_, ?_, ?_, ?_, ?_⟩
  · exact (congrArg decode (by decide +kernel)).trans (decode_hugeuintadd 1 1)
  · exact (congrArg decode (by decide +kernel)).trans
      (decode_hugeuintmul256 (BitVec.ofNat 512 (2 ^ 256 - 1)) (BitVec.ofNat 512 (2 ^ 256 - 1)))
  · exact (congrArg decode (by decide +kernel)).trans (decode_hugeuintdiv256 (BitVec.ofNat 512 (2 ^ 256)) 2)
  · exact (congrArg decode (by decide +kernel)).trans (decode_hugeuintclz (BitVec.ofNat 256 (2 ^ 200 + 12345)))
  · exact (congrArg decode (by decide +kernel)).trans
      (decode_hugeuintreciprocal2 (BitVec.ofNat 512 (2 ^ 511 + 2 ^ 256)))

end Sys2Proof

/-!
PROOF. Limbs (R30, R34, R35) and the reference procedures over them (R102, R103, R112, R129): a value is cut at each
limb into the limb and the rest, so that the chains and the schoolbook product give the numbers' sum, difference and
product; restoring division keeps the quotient and the remainder of the bits it has yet to read.
-/

namespace Sys2Proof

open Machine

/-! ## A value and its limbs (R30) -/

/-- What stands from limb `i` on is that limb and what stands above it. -/
theorem div_pow_eq_limb_add {W : Nat} (v : FixedWidthUint W) (i : Nat) :
    v.toNat / 2 ^ (256 * i) = (limb i v).toNat + 2 ^ 256 * (v.toNat / 2 ^ (256 * (i + 1))) := by
  rw [limb_toNat, Nat.mul_succ, pow_add, ← Nat.div_div_eq_div_mul, Nat.mod_add_div]

/-- Nothing stands above a value's width. -/
theorem div_pow_eq_zero {W : Nat} (v : FixedWidthUint W) {n : Nat} (h : W ≤ n) : v.toNat / 2 ^ n = 0 :=
  Nat.div_eq_of_lt (lt_of_lt_of_le v.isLt (Nat.pow_le_pow_right (by decide) h))

theorem limb_eq_zero_of_le {W : Nat} (v : FixedWidthUint W) {i : Nat} (h : W ≤ 256 * i) : limb i v = 0 := by
  rw [limb, div_pow_eq_zero v h]
  rfl

theorem limb_ne_zero_iff {W : Nat} (v : FixedWidthUint W) (i : Nat) : limb i v ≠ 0 ↔ (limb i v).toNat ≠ 0 := by
  rw [Ne, ← BitVec.toNat_inj]
  rfl

theorem limb_zero_eq {W : Nat} (v : FixedWidthUint W) : limb 0 v = BitVec.ofNat 256 v.toNat := by
  rw [limb, Nat.mul_zero, pow_zero, Nat.div_one]

theorem limb_zero_u256 (v : U256) : limb 0 v = v := by
  rw [limb_zero_eq, BitVec.ofNat_toNat, BitVec.setWidth_eq]

theorem toNat_eq_limbs_u512 (v : U512) : v.toNat = (limb 1 v).toNat * 2 ^ 256 + (limb 0 v).toNat := by
  have hlow := div_pow_eq_limb_add v 0
  have hhigh := div_pow_eq_limb_add v 1
  rw [div_pow_eq_zero v (n := 256 * (1 + 1)) (by decide)] at hhigh
  rw [hhigh, Nat.mul_zero, pow_zero, Nat.div_one] at hlow
  omega

theorem toNat_eq_limbs_u768 (v : U768) :
    v.toNat = (limb 2 v).toNat * 2 ^ 512 + (limb 1 v).toNat * 2 ^ 256 + (limb 0 v).toNat := by
  have hlow := div_pow_eq_limb_add v 0
  have hmiddle := div_pow_eq_limb_add v 1
  have hhigh := div_pow_eq_limb_add v 2
  rw [div_pow_eq_zero v (n := 256 * (2 + 1)) (by decide)] at hhigh
  rw [hmiddle, hhigh, Nat.mul_zero, pow_zero, Nat.div_one] at hlow
  omega

theorem ofLimbs_toNat (h l : U256) : (ofLimbs h l).toNat = h.toNat * 2 ^ 256 + l.toNat := by
  have hh := h.isLt
  have hl := l.isLt
  rw [ofLimbs, BitVec.toNat_ofNat, Nat.mod_eq_of_lt (by omega)]

theorem ofLimbs_hi_lo (v : U512) : ofLimbs (hi v) (lo v) = v :=
  BitVec.eq_of_toNat_eq ((ofLimbs_toNat _ _).trans (toNat_eq_limbs_u512 v).symm)

/-! ## Widening and narrowing (R34, R35) -/

theorem limb_zext {V W : Nat} (h : V ≤ W) (v : FixedWidthUint V) (i : Nat) : limb i (zext W v) = limb i v := by
  rw [limb, limb, zext_toNat W v h]

theorem narrow256_eq_limb {W : Nat} {v : FixedWidthUint W} (h : v.toNat < 2 ^ 256) :
    narrow256 v = .ok (limb 0 v) ∧ (limb 0 v).toNat = v.toNat := by
  obtain ⟨r, hok, hr⟩ := narrow256_of_lt h
  have hlimb : limb 0 v = r := by rw [limb_zero_eq, ← hr, BitVec.ofNat_toNat, BitVec.setWidth_eq]
  rw [hlimb]
  exact ⟨hok, hr⟩

/-! ## The chains over limbs (R102, R103) -/

/-- The limbs from the `i`-th on spell what stands there, up to the end of the `n`-th of them. -/
theorem limbSum_range' {W : Nat} (v : FixedWidthUint W) (i n : Nat) :
    limbSum ((List.range' i n).map fun k => limb k v) + 2 ^ (256 * n) * (v.toNat / 2 ^ (256 * (i + n))) =
      v.toNat / 2 ^ (256 * i) := by
  induction n generalizing i with
  | zero => simp
  | succ n ih =>
    have hrest := ih (i + 1)
    have hpow : 2 ^ (256 * (n + 1)) = 2 ^ 256 * 2 ^ (256 * n) := by rw [Nat.mul_succ, pow_add, Nat.mul_comm]
    have hend : i + 1 + n = i + (n + 1) := by omega
    rw [hend] at hrest
    rw [List.range'_succ, List.map_cons, limbSum_cons, div_pow_eq_limb_add v i, ← hrest, hpow]
    ring

/-- A value of whole limbs is the number of its limbs (R30). -/
theorem limbSum_limbsOf {W : Nat} (hW : 256 * (W / 256) = W) (v : FixedWidthUint W) :
    limbSum (limbsOf v) = v.toNat := by
  have hsum := limbSum_range' v 0 (W / 256)
  rw [Nat.zero_add, hW, div_pow_eq_zero v le_rfl, Nat.mul_zero, Nat.add_zero, Nat.mul_zero, pow_zero,
    Nat.div_one] at hsum
  rw [limbsOf, List.range_eq_range', hsum]

/-- The difference of R103 is the non-negative remainder. -/
theorem subW_toNat_int {W : Nat} (x y : FixedWidthUint W) :
    ((subW x y).toNat : Int) = ((x.toNat : Int) - y.toNat) % (2 ^ W : Nat) := by
  have hx := x.isLt
  have hy := y.isLt
  cases Nat.lt_or_ge x.toNat y.toNat with
  | inl hlt =>
    have hwrap : (((2 ^ W + x.toNat - y.toNat : Nat)) : Int) = (x.toNat : Int) - y.toNat + (2 ^ W : Nat) := by omega
    rw [subW_toNat_of_lt hlt, hwrap, ← Int.add_emod_right, Int.emod_eq_of_lt (by omega) (by omega)]
  | inr hle => rw [subW_toNat_of_le hle, Nat.cast_sub hle, Int.emod_eq_of_lt (by omega) (by omega)]

section
variable {W : Nat} (hW : 256 * (W / 256) = W) (x y : FixedWidthUint W)
include hW

/-- The carry chain gives the sum, and its last carry says that the sum has left the width (R102, R103). -/
theorem carryChainW_eq : carryChainW x y = (addW x y, if 2 ^ W ≤ x.toNat + y.toNat then 1 else 0) := by
  have hlen : (limbsOf x).length = (limbsOf y).length := by rw [limbsOf_length, limbsOf_length]
  have hsum := addLimbs_sum 0 _ _ hlen
  have hlt := limbSum_lt (addLimbs 0 (limbsOf x) (limbsOf y)).1
  have hcarry := addLimbs_carry 0 (limbsOf x) (limbsOf y) (by decide)
  rw [addLimbs_length 0 _ _ hlen, limbsOf_length, hW] at hlt
  rw [limbsOf_length, hW, limbSum_limbsOf hW, limbSum_limbsOf hW] at hsum
  rw [carryChainW, addW]
  generalize addLimbs 0 (limbsOf x) (limbsOf y) = r at *
  obtain h0 | h1 : r.2 = 0 ∨ r.2 = 1 := by omega
  · rw [h0, Nat.mul_zero] at hsum
    rw [if_neg (by omega), h0, ← Nat.add_zero (limbSum r.1), hsum, Nat.add_zero]
  · rw [h1, Nat.mul_one] at hsum
    have hvalue : BitVec.ofNat W (x.toNat + y.toNat) = BitVec.ofNat W (limbSum r.1) :=
      BitVec.eq_of_toNat_eq (by
        rw [BitVec.toNat_ofNat, BitVec.toNat_ofNat, ← Nat.add_zero (_ + y.toNat), ← hsum, Nat.add_mod_right])
    rw [if_pos (by omega), h1, hvalue]

/-- The borrow chain gives the difference, and its last borrow says that it is negative (R102, R103). -/
theorem borrowChainW_eq : borrowChainW x y = (subW x y, if x.toNat < y.toNat then 1 else 0) := by
  have hlen : (limbsOf x).length = (limbsOf y).length := by rw [limbsOf_length, limbsOf_length]
  have hsum := subLimbs_sum 0 _ _ (by decide) hlen
  have hlt := limbSum_lt (subLimbs 0 (limbsOf x) (limbsOf y)).1
  have hborrow := subLimbs_borrow 0 (limbsOf x) (limbsOf y) (by decide)
  rw [subLimbs_length 0 _ _ hlen, limbsOf_length, hW] at hlt
  rw [limbsOf_length, hW, limbSum_limbsOf hW, limbSum_limbsOf hW] at hsum
  rw [borrowChainW]
  generalize subLimbs 0 (limbsOf x) (limbsOf y) = r at *
  have hvalue : BitVec.ofNat W (limbSum r.1) = subW x y := by
    apply BitVec.eq_of_toNat_eq
    apply Int.ofNat_inj.mp
    rw [BitVec.toNat_ofNat, Nat.mod_eq_of_lt hlt, subW_toNat_int]
    calc (limbSum r.1 : Int) = limbSum r.1 % (2 ^ W : Nat) := (Int.emod_eq_of_lt (by omega) (by omega)).symm
      _ = ((x.toNat : Int) - y.toNat) % (2 ^ W : Nat) := by
        rw [hsum, Nat.cast_zero, sub_zero, Nat.cast_mul, Int.add_mul_emod_self_left]
  obtain h0 | h1 : r.2 = 0 ∨ r.2 = 1 := by omega
  · rw [h0, Nat.mul_zero] at hsum
    rw [hvalue, if_neg (by omega), h0]
  · rw [h1, Nat.mul_one] at hsum
    rw [hvalue, if_pos (by omega), h1]

end

theorem limbsOf_u512 (v : U512) : limbsOf v = [lo v, hi v] := rfl

/-- The chain of R102 is the chain over two limbs. -/
theorem carryChainW_eq_carryChain (A B : U512) : carryChainW A B = carryChain A B := by
  simp only [carryChainW, limbsOf_u512, addLimbs, limbSum, carryChain, ofLimbs]
  simp [Nat.add_comm, Nat.mul_comm]

theorem borrowChainW_eq_borrowChain (A B : U512) : borrowChainW A B = borrowChain A B := by
  simp only [borrowChainW, limbsOf_u512, subLimbs, limbSum, borrowChain, ofLimbs]
  simp [Nat.add_comm, Nat.mul_comm]

/-! ## The schoolbook product (R112) -/

theorem limbProduct_toNat (x y : U256) : (limbProduct x y).toNat = x.toNat * y.toNat := by
  rw [limbProduct, BitVec.toNat_ofNat, Nat.mod_eq_of_lt (mul_lt_of_lt_256 x.isLt y.isLt)]

/-- The two parts of the schoolbook product are together the full product. -/
theorem schoolbook_sum (A B : U512) :
    A.toNat * B.toNat = (schoolbook A B).2 * 2 ^ 512 + (schoolbook A B).1.toNat := by
  have hA : A.toNat = (hi A).toNat * 2 ^ 256 + (lo A).toNat := toNat_eq_limbs_u512 A
  have hB : B.toNat = (hi B).toNat * 2 ^ 256 + (lo B).toNat := toNat_eq_limbs_u512 B
  have hexpand (a₁ a₀ b₁ b₀ R : Nat) :
      (a₁ * R + a₀) * (b₁ * R + b₀) = a₀ * b₀ + R * (a₀ * b₁ + a₁ * b₀) + R * (R * (a₁ * b₁)) := by ring
  rw [hA, hB, hexpand]
  simp only [schoolbook, ofLimbs_toNat, hi_toNat (limbProduct _ _), lo_toNat (limbProduct _ _), limbProduct_toNat,
    BitVec.toNat_ofNat]
  omega

/-! ## Restoring division (R129) -/

/-- From the remainder `r` of the bits read, the loop divides the number of `r` and the bits to come. -/
theorem restoringLoop_eq (N D i q r : Nat) (hr : r < D) :
    restoringLoop N D i q r = (q + (r * 2 ^ i + N % 2 ^ i) / D, (r * 2 ^ i + N % 2 ^ i) % D) := by
  induction i generalizing q r with
  | zero => simp [restoringLoop, Nat.mod_one, Nat.div_eq_of_lt hr, Nat.mod_eq_of_lt hr]
  | succ i ih =>
    have hbit : N / 2 ^ i % 2 < 2 := Nat.mod_lt _ (by decide)
    have hnext : r * 2 ^ (i + 1) + N % 2 ^ (i + 1) = (2 * r + N / 2 ^ i % 2) * 2 ^ i + N % 2 ^ i := by
      rw [pow_succ, Nat.mod_mul]
      ring
    rw [restoringLoop, hnext]
    split
    · next hge =>
      have hsplit : (2 * r + N / 2 ^ i % 2) * 2 ^ i + N % 2 ^ i =
          (2 * r + N / 2 ^ i % 2 - D) * 2 ^ i + N % 2 ^ i + D * 2 ^ i := by
        rw [Nat.add_right_comm, ← Nat.add_mul, Nat.sub_add_cancel hge]
      rw [ih _ _ (by omega), hsplit, Nat.add_mul_div_left _ _ (Nat.zero_lt_of_lt hr), Nat.add_mul_mod_self_left,
        Nat.add_right_comm, Nat.add_assoc]
    · next hlt => exact ih _ _ (by omega)

/-! ## The obligations -/

/-- Settles O7: the cuts at the limbs' ends, and that 512 bits are the two limbs' number. -/
theorem valueIsTheSumOfItsLimbs : Obligations.ValueIsTheSumOfItsLimbs := by
  refine ⟨limb_zero_u256, toNat_eq_limbs_u512, toNat_eq_limbs_u768, fun h l => ?_, ofLimbs_hi_lo⟩
  have hh := h.isLt
  have hl := l.isLt
  constructor
  · exact BitVec.eq_of_toNat_eq (by rw [hi_toNat, ofLimbs_toNat]; omega)
  · exact BitVec.eq_of_toNat_eq (by rw [lo_toNat, ofLimbs_toNat]; omega)

/-- Settles O8: widening keeps the number and so every limb, and a value has no limb above its width. -/
theorem wideningKeepsTheNumber : Obligations.WideningKeepsTheNumber := by
  refine ⟨fun v => ⟨zext_toNat _ v (by decide), ?_, ?_⟩, fun v => ⟨zext_toNat _ v (by decide), ?_, ?_, ?_⟩,
    fun v => ⟨zext_toNat _ v (by decide), ?_, ?_, ?_⟩⟩ <;> rw [limb_zext (by decide)]
  · exact limb_zero_u256 v
  · exact limb_eq_zero_of_le v (by decide)
  · exact limb_zero_u256 v
  · exact limb_eq_zero_of_le v (by decide)
  · exact limb_eq_zero_of_le v (by decide)
  · rfl
  · rfl
  · exact limb_eq_zero_of_le v (by decide)

/-- Settles O9: a value is `2^256` or more exactly when something stands above its low limb. -/
theorem narrowingFaultsOrKeepsTheNumber : Obligations.NarrowingFaultsOrKeepsTheNumber := by
  refine ⟨fun v => ⟨?_, narrow256_of_ge, narrow256_eq_limb⟩, fun v => ⟨?_, narrow256_of_ge, narrow256_eq_limb⟩⟩
  · have hv := toNat_eq_limbs_u512 v
    have hlow := (limb 0 v).isLt
    rw [limb_ne_zero_iff]
    omega
  · have hv := toNat_eq_limbs_u768 v
    have hlow := (limb 0 v).isLt
    rw [limb_ne_zero_iff, limb_ne_zero_iff]
    omega

/-- Settles O34: the chains over whole limbs, of which R102's are the case of two. -/
theorem carryAndBorrowChainsGiveTheResults : Obligations.CarryAndBorrowChainsGiveTheResults := by
  refine ⟨fun A B => ?_, fun W hW x y => ?_⟩
  · rw [carryChainW_eq_carryChain, borrowChainW_eq_borrowChain, ← carryChainW_eq_carryChain,
      ← borrowChainW_eq_borrowChain, carryChainW_eq rfl, borrowChainW_eq rfl]
    simp [addTruncates, subTruncates]
  · have hlimbs : 256 * (W / 256) = W := by omega
    exact ⟨carryChainW_eq hlimbs x y, borrowChainW_eq hlimbs x y, addW_toNat x y, subW_toNat_int x y⟩

/-- Settles O35: the part above 512 bits is the product's quotient by `2^512`, and the part sent its remainder. -/
theorem schoolbookProductGivesTheResult : Obligations.SchoolbookProductGivesTheResult := by
  intro A B
  have hsum := schoolbook_sum A B
  have hlt := (schoolbook A B).1.isLt
  refine ⟨BitVec.eq_of_toNat_eq ?_, ?_, hsum⟩
  · rw [mul512_toNat, hsum, Nat.mul_add_mod', Nat.mod_eq_of_lt hlt]
  · rw [mulTruncates, decide_eq_true_iff, hsum]
    omega

/-- Settles O36: at the start nothing is read and all of the numerator is to come. -/
theorem restoringDivisionGivesQuotientAndRemainder : Obligations.RestoringDivisionGivesQuotientAndRemainder := by
  intro W N D hN hD
  rw [restoringDiv, restoringLoop_eq N D W 0 0 hD, Nat.mod_eq_of_lt hN, Nat.zero_mul, Nat.zero_add, Nat.zero_add]

end Sys2Proof

/-!
PROOF. What the eleven commands answer, said once in numbers: each answer is a fault, a pair with its TRUNC, or a word.
The statements about every command (STATUS, FLAGS, length, soundness, the parameter) are case analyses of it.
-/

namespace Sys2Proof

open Machine

/-! ## The three answers of R75 -/

/-- What a response says, in numbers (R75). -/
inductive Answer where
  | fault (c : Cause)
  | pair (trunc : Bool) (v : Nat)
  | word (v : Nat)

/-- The response frame of an answer (R75). -/
def Answer.frame : Answer → Frame
  | .fault c => faultFrame c
  | .pair trunc v => pairResponse trunc v
  | .word v => wordResponse v

/-- The STATUS byte of an answer (R71). -/
def Answer.status : Answer → Byte
  | .fault c => causeCode c
  | .pair _ _ => 0x00#8
  | .word _ => 0x00#8

/-- The TRUNC flag of an answer: only a pair can set it (R72). -/
def Answer.trunc : Answer → Bool
  | .fault _ => false
  | .pair trunc _ => trunc
  | .word _ => false

/-- The length of an answer's frame (R75). -/
def Answer.size : Answer → Nat
  | .fault _ => 2
  | .pair _ _ => 66
  | .word _ => 34

/-- The answer is the true result `r`, or a fault, or says by TRUNC that it is `r` modulo `2^512` (R186). -/
inductive Answer.Sound (r : Int) : Answer → Prop where
  | fault (c : Cause) : Answer.Sound r (.fault c)
  | exactPair {v : Nat} : v < 2 ^ 512 → (v : Int) = r → Answer.Sound r (.pair false v)
  | truncatedPair {v : Nat} :
      v < 2 ^ 512 → (v : Int) = r % 2 ^ 512 → r < 0 ∨ 2 ^ 512 ≤ r → Answer.Sound r (.pair true v)
  | word {v : Nat} : v < 2 ^ 256 → (v : Int) = r → Answer.Sound r (.word v)

/-- The answer is one a command of that opcode may give: a pair up to opcode 0x06 and a word from 0x07 on (R75), the
range fault only where the unit has the range test (R177). -/
def Answer.FitsOpcode (precheck : Bool) (opcode : Nat) : Answer → Prop
  | .fault c => c = .preconditionViolation → precheck = true
  | .pair _ _ => opcode ≤ 6
  | .word _ => 6 < opcode

@[simp] theorem Answer.fitsOpcode_fault (p : Bool) (n : Nat) (c : Cause) :
    (Answer.fault c).FitsOpcode p n ↔ (c = .preconditionViolation → p = true) := Iff.rfl
@[simp] theorem Answer.fitsOpcode_pair (p : Bool) (n : Nat) (trunc : Bool) (v : Nat) :
    (Answer.pair trunc v).FitsOpcode p n ↔ n ≤ 6 := Iff.rfl
@[simp] theorem Answer.fitsOpcode_word (p : Bool) (n v : Nat) : (Answer.word v).FitsOpcode p n ↔ 6 < n := Iff.rfl
@[simp] theorem Answer.status_fault (c : Cause) : (Answer.fault c).status = causeCode c := rfl
@[simp] theorem Answer.status_pair (trunc : Bool) (v : Nat) : (Answer.pair trunc v).status = 0x00#8 := rfl
@[simp] theorem Answer.status_word (v : Nat) : (Answer.word v).status = 0x00#8 := rfl
@[simp] theorem Answer.trunc_fault (c : Cause) : (Answer.fault c).trunc = false := rfl
@[simp] theorem Answer.trunc_pair (trunc : Bool) (v : Nat) : (Answer.pair trunc v).trunc = trunc := rfl
@[simp] theorem Answer.trunc_word (v : Nat) : (Answer.word v).trunc = false := rfl

theorem frame_status (a : Answer) (x : Byte) : a.frame.getD 0 x = a.status := by
  cases a <;> rfl

theorem frame_flags (a : Answer) (x : Byte) : a.frame.getD 1 x = flagsByte a.trunc := by
  cases a <;> rfl

theorem frame_length (a : Answer) : a.frame.length = a.size := by
  cases a <;> simp [Answer.frame, Answer.size, faultFrame, pairResponse, wordResponse]

theorem causeCode_ne_zero (c : Cause) : causeCode c ≠ 0x00#8 := by
  cases c <;> decide

/-- A response tells its answer's kind by STATUS: a word is no fault. -/
theorem wordResponse_ne_fault (r : Nat) (c : Cause) : wordResponse r ≠ faultFrame c := by
  intro h
  exact causeCode_ne_zero c (List.cons.inj h).1.symm

/-- A word is read back from its 32 bytes (R74). -/
theorem fromBe_toBe_word {v : Nat} (h : v < 2 ^ 256) : fromBe (toBe 32 v) = v := by
  rw [fromBe_toBe, pow_256_eq, Nat.mod_eq_of_lt h]

/-- A word response determines its number (R74). -/
theorem wordResponse_inj {a b : Nat} (ha : a < 2 ^ 256) (hb : b < 2 ^ 256) :
    wordResponse a = wordResponse b ↔ a = b := by
  refine ⟨fun h => ?_, fun h => h ▸ rfl⟩
  have hbytes : toBe 32 a = toBe 32 b := (List.cons.inj (List.cons.inj h).2).2
  have hvalue := congrArg fromBe hbytes
  rwa [fromBe_toBe_word ha, fromBe_toBe_word hb] at hvalue

/-- The state that is answered tells the response apart. -/
theorem next_answeredWith_inj {s : State} {a b : Frame} :
    (.next (s.answeredWith a) : Result) = .next (s.answeredWith b) ↔ a = b := by
  refine ⟨fun h => ?_, fun h => h ▸ rfl⟩
  injection h with h
  exact Phase.resp.inj (congrArg State.phase h)

/-! ## The answer of every command -/

/-- A quotient by `b` as one word (R123, R124). -/
def narrowedAnswer (b q : Nat) : Answer :=
  if b = 0 then .fault .divisionByZero else if 2 ^ 256 ≤ q then .fault .narrowingViolation else .word q

/-- The reciprocal of `d` at width `W`, whose documented range begins at `2^k` (R151, R152). -/
def recipAnswer (precheck : Bool) (k W d : Nat) : Answer :=
  if d = 0 then .fault .divisionByZero
  else if d < 2 ^ k then (if precheck then .fault .preconditionViolation else .fault .narrowingViolation)
  else .word ((2 ^ W - 1) / d - 2 ^ 256)

/-- The answer of every command, for all operands and both settings of the parameter (R100, R101, R110, R111, R121 to
R124, R140, R151, R152). -/
def answerOf (precheck : Bool) : Instr → Answer
  | .div512 A B => if B.toNat = 0 then .fault .divisionByZero else .pair false (A.toNat / B.toNat)
  | .divup512 A B =>
    if B.toNat = 0 then .fault .divisionByZero
    else .pair false (A.toNat / B.toNat + if A.toNat % B.toNat = 0 then 0 else 1)
  | .hugeuintadd A B => .pair (addTruncates A B) ((A.toNat + B.toNat) % 2 ^ 512)
  | .hugeuintsub A B => .pair (subTruncates A B) (subW A B).toNat
  | .hugeuintmul256 A B =>
    if 2 ^ 256 ≤ A.toNat ∨ 2 ^ 256 ≤ B.toNat then .fault .narrowingViolation else .pair false (A.toNat * B.toNat)
  | .hugeuintmul A B => .pair (mulTruncates A B) (A.toNat * B.toNat % 2 ^ 512)
  | .hugeuintdiv256 A B => narrowedAnswer B.toNat (A.toNat / B.toNat)
  | .hugeuintdiv A B => narrowedAnswer B.toNat (A.toNat / B.toNat)
  | .hugeuintclz A => .word (clzCount A)
  | .hugeuintreciprocal A => recipAnswer precheck 255 512 A.toNat
  | .hugeuintreciprocal2 A => recipAnswer precheck 511 768 A.toNat

theorem exec_hugeuintdiv_eq (A B : U512) (s : State) :
    exec (.hugeuintdiv A B) s = .next (s.answeredWith (narrowedAnswer B.toNat (A.toNat / B.toNat)).frame) := by
  rw [narrowedAnswer]
  split_ifs with hzero hge
  · exact exec_hugeuintdiv_of_zero hzero s
  · exact exec_hugeuintdiv_of_ge hzero hge s
  · exact exec_hugeuintdiv_of_lt hzero (Nat.lt_of_not_le hge) s

/-- A reciprocal's answer, for a divisor of any width (R151, R152). -/
theorem exec_recip_eq {k V W : Nat} {d : FixedWidthUint V} {i : Instr}
    (hi : ∀ precheck, replyOf precheck i = replyRecip precheck d) (hV : V = k + 1) (hW : W = V + 256) (s : State) :
    exec i s = .next (s.answeredWith (recipAnswer s.cfg.recipPrecheck k W d.toNat).frame) := by
  rw [recipAnswer]
  split_ifs with hzero hlt hpre
  · exact exec_recip_of_zero hi hzero s
  · exact exec_recip_of_lt_precheck hi hV (Nat.pos_of_ne_zero hzero) hlt hpre
  · exact exec_recip_of_lt_noPrecheck hi hV (Nat.pos_of_ne_zero hzero) hlt (Bool.eq_false_iff.mpr hpre)
  · exact (exec_recip_of_ge hi hV hW (Nat.le_of_not_lt hlt)).2 s

/-- Every command is answered, with the answer of its row and nothing else changed. -/
theorem exec_eq_answeredWith (i : Instr) (s : State) :
    exec i s = .next (s.answeredWith (answerOf s.cfg.recipPrecheck i).frame) := by
  cases i with
  | div512 A B =>
    rw [answerOf]
    split_ifs with hzero
    · exact exec_div512_of_zero hzero s
    · exact exec_div512_of_ne_zero hzero s
  | divup512 A B =>
    rw [answerOf]
    split_ifs with hzero hmod
    · exact exec_divup512_of_zero hzero s
    · exact exec_divup512_of_mod_eq_zero hzero hmod s
    · exact exec_divup512_of_mod_ne_zero hzero hmod s
  | hugeuintadd A B => rw [exec_hugeuintadd, addW_toNat]; rfl
  | hugeuintsub A B => exact exec_hugeuintsub A B s
  | hugeuintmul256 A B =>
    rw [answerOf]
    split_ifs with hge
    · exact exec_hugeuintmul256_of_ge hge s
    · obtain ⟨hA, hB⟩ := not_or.mp hge
      have hfits := mul_lt_of_lt_256 (Nat.lt_of_not_le hA) (Nat.lt_of_not_le hB)
      rw [exec_hugeuintmul256_of_lt (Nat.lt_of_not_le hA) (Nat.lt_of_not_le hB), mul512_toNat, Nat.mod_eq_of_lt hfits]
      rfl
  | hugeuintmul A B => rw [exec_hugeuintmul, mul512_toNat]; rfl
  | hugeuintdiv256 A B =>
    have hwide : (zext 512 B).toNat = B.toNat := zext_toNat 512 B (by decide)
    rw [exec_hugeuintdiv256_eq, exec_hugeuintdiv_eq, hwide]
    rfl
  | hugeuintdiv A B => exact exec_hugeuintdiv_eq A B s
  | hugeuintclz A => exact exec_hugeuintclz A s
  | hugeuintreciprocal A => exact exec_recip_eq (k := 255) (replyOf_hugeuintreciprocal A) rfl rfl s
  | hugeuintreciprocal2 A => exact exec_recip_eq (k := 511) (replyOf_hugeuintreciprocal2 A) rfl rfl s

/-! ## What all answers have in common -/

/-- TRUNC is set by the three commands that reduce their result modulo `2^512`, and only when that changes it (R15). -/
theorem answerOf_trunc_iff (precheck : Bool) (i : Instr) :
    (answerOf precheck i).trunc = true ↔
      (∃ A B, i = .hugeuintadd A B ∧ 2 ^ 512 ≤ A.toNat + B.toNat) ∨
      (∃ A B, i = .hugeuintsub A B ∧ A.toNat < B.toNat) ∨
      (∃ A B, i = .hugeuintmul A B ∧ 2 ^ 512 ≤ A.toNat * B.toNat) := by
  cases i with
  | hugeuintadd A B => simp [answerOf, addTruncates]
  | hugeuintsub A B => simp [answerOf, subTruncates]
  | hugeuintmul A B => simp [answerOf, mulTruncates]
  | div512 | divup512 | hugeuintmul256 | hugeuintdiv256 | hugeuintdiv | hugeuintclz | hugeuintreciprocal
  | hugeuintreciprocal2 =>
    simp [answerOf, narrowedAnswer, recipAnswer, apply_ite Answer.trunc]

theorem answerOf_fitsOpcode (precheck : Bool) (i : Instr) :
    (answerOf precheck i).FitsOpcode precheck i.command.opcode.toNat := by
  cases i <;>
    simp [answerOf, narrowedAnswer, recipAnswer, apply_ite (Answer.FitsOpcode _ _), Instr.command, Command.opcode]

/-- The parameter decides between two faults below the range, and nothing else (R154). -/
theorem recipAnswer_precheck (k W d : Nat) :
    recipAnswer false k W d = recipAnswer true k W d ∨
    recipAnswer false k W d = .fault .narrowingViolation ∧ recipAnswer true k W d = .fault .preconditionViolation ∧
      0 < d ∧ d < 2 ^ k := by
  by_cases hzero : d = 0
  · exact .inl (by simp only [recipAnswer, if_pos hzero])
  · by_cases hlt : d < 2 ^ k
    · exact .inr ⟨by simp [recipAnswer, hzero, hlt], by simp [recipAnswer, hzero, hlt], Nat.pos_of_ne_zero hzero, hlt⟩
    · exact .inl (by simp only [recipAnswer, if_neg hlt])

theorem answerOf_precheck (i : Instr) :
    answerOf false i = answerOf true i ∨
    answerOf false i = .fault .narrowingViolation ∧ answerOf true i = .fault .preconditionViolation ∧
      ((∃ d, i = .hugeuintreciprocal d ∧ 0 < d.toNat ∧ d.toNat < 2 ^ 255) ∨
        (∃ d, i = .hugeuintreciprocal2 d ∧ 0 < d.toNat ∧ d.toNat < 2 ^ 511)) := by
  cases i with
  | hugeuintreciprocal d =>
    exact (recipAnswer_precheck 255 512 d.toNat).imp id fun ⟨hoff, hon, hrange⟩ => ⟨hoff, hon, .inl ⟨d, rfl, hrange⟩⟩
  | hugeuintreciprocal2 d =>
    exact (recipAnswer_precheck 511 768 d.toNat).imp id fun ⟨hoff, hon, hrange⟩ => ⟨hoff, hon, .inr ⟨d, rfl, hrange⟩⟩
  | div512 | divup512 | hugeuintadd | hugeuintsub | hugeuintmul256 | hugeuintmul | hugeuintdiv256 | hugeuintdiv
  | hugeuintclz => exact .inl rfl

/-- Every command's answer is a legal response (R75). -/
theorem answerOf_legal (c : Config) (i : Instr) : legalResponse c (answerOf c.recipPrecheck i).frame = true := by
  have hfits := answerOf_fitsOpcode c.recipPrecheck i
  cases h : answerOf c.recipPrecheck i with
  | fault e =>
    rw [h, Answer.fitsOpcode_fault] at hfits
    cases e <;> simp_all [Answer.frame, faultFrame, causeCode, legalResponse]
  | pair trunc v => cases trunc <;> simp [Answer.frame, pairResponse, legalResponse]
  | word v => simp [Answer.frame, wordResponse, legalResponse]

/-! ## No answer is silently wrong (R186) -/

/-- A number that is reduced modulo `2^512` and says so by TRUNC. -/
theorem sound_mod (n : Nat) : (Answer.pair (decide (2 ^ 512 ≤ n)) (n % 2 ^ 512)).Sound n := by
  cases Nat.lt_or_ge n (2 ^ 512) with
  | inl hfits =>
    rw [decide_eq_false (Nat.not_le.mpr hfits), Nat.mod_eq_of_lt hfits]
    exact .exactPair hfits rfl
  | inr hge =>
    rw [decide_eq_true hge]
    exact .truncatedPair (Nat.mod_lt _ (by positivity)) (by norm_cast) (.inr (by exact_mod_cast hge))

/-- The difference, with the borrow it says by TRUNC. -/
theorem sound_subW (A B : U512) :
    (Answer.pair (subTruncates A B) (subW A B).toNat).Sound ((A.toNat : Int) - B.toNat) := by
  cases Nat.lt_or_ge A.toNat B.toNat with
  | inl hborrow =>
    rw [subTruncates, decide_eq_true hborrow]
    exact .truncatedPair (subW A B).isLt (by rw [subW_toNat_int, Nat.cast_pow, Nat.cast_ofNat]) (.inl (by omega))
  | inr hle =>
    rw [subTruncates, decide_eq_false (Nat.not_lt.mpr hle), subW_toNat_of_le hle]
    exact .exactPair (Nat.sub_lt_of_lt A.isLt) (Nat.cast_sub hle)

theorem sound_narrowedAnswer (b q : Nat) : (narrowedAnswer b q).Sound q := by
  rw [narrowedAnswer]
  split_ifs with hzero hge
  · exact .fault _
  · exact .fault _
  · exact .word (Nat.lt_of_not_le hge) rfl

/-- In the range the subtraction of R150 does not wrap and its result is one word. -/
theorem sound_recipAnswer {k V W : Nat} {d : FixedWidthUint V} (hV : V = k + 1) (hW : W = V + 256) (precheck : Bool) :
    (recipAnswer precheck k W d.toNat).Sound (((2 ^ W - 1) / d.toNat : Nat) - 2 ^ 256) := by
  rw [recipAnswer]
  split_ifs with hzero hlt hpre
  · exact .fault _
  · exact .fault _
  · exact .fault _
  · have hpos := Nat.pos_of_ne_zero hzero
    have hnowrap := pow_le_max_div hW hpos
    refine .word ((max_div_sub_lt_iff hW hV hpos).mpr (Nat.le_of_not_lt hlt)) ?_
    rw [Nat.cast_sub hnowrap]
    norm_cast

theorem answerOf_sound (precheck : Bool) (i : Instr) : (answerOf precheck i).Sound (Instr.trueResult i) := by
  cases i with
  | div512 A B =>
    rw [answerOf]
    split_ifs
    · exact .fault _
    · exact .exactPair (div_toNat_lt A B.toNat) rfl
  | divup512 A B =>
    rw [answerOf, Instr.trueResult]
    by_cases hzero : B.toNat = 0
    · rw [if_pos hzero]
      exact .fault _
    · rw [if_neg hzero]
      split_ifs with hmod
      · exact .exactPair (div_toNat_lt A B.toNat) rfl
      · exact .exactPair (div_succ_lt_of_mod_ne_zero hzero hmod) rfl
  | hugeuintadd A B =>
    rw [answerOf, addTruncates, Instr.trueResult, ← Int.natCast_add]
    exact sound_mod _
  | hugeuintsub A B =>
    rw [answerOf, Instr.trueResult]
    exact sound_subW A B
  | hugeuintmul256 A B =>
    rw [answerOf, Instr.trueResult]
    split_ifs with hge
    · exact .fault _
    · obtain ⟨hA, hB⟩ := not_or.mp hge
      have hfits := mul_lt_of_lt_256 (Nat.lt_of_not_le hA) (Nat.lt_of_not_le hB)
      exact .exactPair (hfits) (Nat.cast_mul _ _)
  | hugeuintmul A B =>
    rw [answerOf, mulTruncates, Instr.trueResult, ← Int.natCast_mul]
    exact sound_mod _
  | hugeuintdiv256 A B =>
    rw [answerOf, Instr.trueResult]
    exact sound_narrowedAnswer _ _
  | hugeuintdiv A B =>
    rw [answerOf, Instr.trueResult]
    exact sound_narrowedAnswer _ _
  | hugeuintclz A =>
    have hsum := clzCount_add_size A
    rw [answerOf, Instr.trueResult]
    exact .word (by omega) (by omega)
  | hugeuintreciprocal A =>
    rw [answerOf, Instr.trueResult]
    exact sound_recipAnswer (k := 255) (W := 512) rfl rfl precheck
  | hugeuintreciprocal2 A =>
    rw [answerOf, Instr.trueResult]
    exact sound_recipAnswer (k := 511) (W := 768) rfl rfl precheck

/-! ## The response to a frame -/

/-- The response to a frame that decodes is its command's answer. -/
theorem responseTo_of_decode_ok {cmd : Frame} {i : Instr} (h : decode cmd = .ok i) (precheck : Bool) :
    responseTo precheck cmd = (answerOf precheck i).frame := by
  have hexec := exec_eq_answeredWith i (State.resetWith ⟨precheck⟩)
  rw [exec_eq_answer, answer_eq, next_answeredWith_inj] at hexec
  rw [responseTo, h]
  exact hexec

theorem responseTo_of_decode_error {cmd : Frame} {c : Cause} (h : decode cmd = .error c) (precheck : Bool) :
    responseTo precheck cmd = faultFrame c := by
  rw [responseTo, h]

/-- The decoder raises the two faults of a frame, never one of a command (R65). -/
theorem decode_error_cases {cmd : Frame} {c : Cause} (h : decode cmd = .error c) :
    c = .malformedInput ∨ c = .illegalCommand := by
  cases cmd with
  | nil => cases h; exact .inl rfl
  | cons op body =>
    simp only [decode] at h
    split at h
    · cases h; exact .inr rfl
    · split at h <;> cases h
      exact .inl rfl

/-- Every frame is answered with a legal response (R75). -/
theorem responseTo_legal (c : Config) (cmd : Frame) : legalResponse c (responseTo c.recipPrecheck cmd) = true := by
  cases hdec : decode cmd with
  | ok i =>
    rw [responseTo_of_decode_ok hdec]
    exact answerOf_legal c i
  | error e =>
    rw [responseTo_of_decode_error hdec]
    obtain rfl | rfl := decode_error_cases hdec <;> rfl

/-! ## The obligations -/

/-- Settles O22: FLAGS is the TRUNC of the command's answer. -/
theorem truncIsSetExactlyWhenTheResultDoesNotFit : Obligations.TruncIsSetExactlyWhenTheResultDoesNotFit := by
  intro i s
  refine ⟨_, exec_eq_answeredWith i s, ?_⟩
  rw [frame_flags, ← answerOf_trunc_iff s.cfg.recipPrecheck i]
  cases (answerOf s.cfg.recipPrecheck i).trunc <;> decide

/-- Settles O23: the matrix has the conditions of the answers. -/
theorem statusFollowsTheFaultMatrix : Obligations.StatusFollowsTheFaultMatrix := by
  intro i s
  refine ⟨_, exec_eq_answeredWith i s, ?_⟩
  rw [frame_status]
  cases i <;>
    simp only [answerOf, narrowedAnswer, recipAnswer, apply_ite Answer.status,
      apply_ite (BitVec.ofNat 8), Answer.status_fault, Answer.status_pair, Answer.status_word, causeCode]

/-- Settles O24: a command that succeeds answers with a pair up to opcode 0x06, and with a word from 0x07 on. -/
theorem responseLengthFollowsTheFormat : Obligations.ResponseLengthFollowsTheFormat := by
  intro i s
  refine ⟨_, exec_eq_answeredWith i s, answerOf_legal s.cfg i, ?_⟩
  rw [frame_length, frame_status]
  have hfits := answerOf_fitsOpcode s.cfg.recipPrecheck i
  cases h : answerOf s.cfg.recipPrecheck i with
  | fault c => exact (if_neg (causeCode_ne_zero c)).symm
  | pair trunc v =>
    rw [h, Answer.fitsOpcode_pair] at hfits
    rw [Answer.status_pair, if_pos rfl, if_pos hfits, Answer.size]
  | word v =>
    rw [h, Answer.fitsOpcode_word] at hfits
    rw [Answer.status_word, if_pos rfl, if_neg (Nat.not_le.mpr hfits), Answer.size]

/-- Settles O25: whatever the answer is, it is sound for the command's true result. -/
theorem noAnswerIsSilentlyWrong : Obligations.NoAnswerIsSilentlyWrong := by
  intro i s
  refine ⟨_, exec_eq_answeredWith i s, ?_⟩
  have hsound := answerOf_sound s.cfg.recipPrecheck i
  generalize answerOf s.cfg.recipPrecheck i = a at hsound ⊢
  cases hsound with
  | fault c => exact .inl ⟨c, rfl⟩
  | exactPair hlt hv => exact .inr (.inl ⟨_, hlt, rfl, hv⟩)
  | truncatedPair hlt hv hout => exact .inr (.inr (.inl ⟨_, hlt, rfl, hv, hout⟩))
  | word hlt hv => exact .inr (.inr (.inr ⟨_, hlt, rfl, hv⟩))

/-- Settles O48: a frame is rejected in the same way under both settings, or its command's answers differ in the fault
of the range test. -/
theorem parameterChangesOnlyTheStatusOfRangeFaults : Obligations.ParameterChangesOnlyTheStatusOfRangeFaults := by
  intro s cmd
  simp only [runFrame_eq]
  cases hdec : decode cmd with
  | error c =>
    simp only [responseTo_of_decode_error hdec]
    exact .inl ⟨_, rfl, rfl⟩
  | ok i =>
    simp only [responseTo_of_decode_ok hdec]
    obtain hsame | ⟨hfalse, htrue, hrange⟩ := answerOf_precheck i
    · exact .inl ⟨_, rfl, by rw [hsame]⟩
    · rw [hfalse, htrue]
      refine .inr ⟨rfl, rfl, ?_⟩
      simpa only [Except.ok.injEq] using hrange

end Sys2Proof

/-!
PROOF. The reciprocals beside the other commands (R142, R158): the number the result stands for is the floor quotient,
and the documented range is where the divisor's top bit is set, which is where no leading zero is counted.
-/

namespace Sys2Proof

open Machine

/-- The number the result stands for is the largest multiplier that stays within the maximal value (R158). -/
theorem mul_le_max_iff {V W : Nat} {d : FixedWidthUint V} (hW : W = V + 256) (hpos : 0 < d.toNat) (m : Nat) :
    m * d.toNat ≤ 2 ^ W - 1 ↔ m ≤ (2 ^ W - 1) / d.toNat - 2 ^ 256 + 2 ^ 256 := by
  rw [Nat.sub_add_cancel (pow_le_max_div hW hpos), Nat.le_div_iff_mul_le hpos]

/-- Below the documented range the answer is a fault under both settings (R154). -/
theorem recipAnswer_of_lt (precheck : Bool) {k d : Nat} (W : Nat) (h : d < 2 ^ k) :
    ∃ c, recipAnswer precheck k W d = .fault c := by
  rw [recipAnswer, if_pos h]
  split_ifs
  · exact ⟨_, rfl⟩
  · exact ⟨_, rfl⟩
  · exact ⟨_, rfl⟩

/-- A reciprocal succeeds exactly from the lower end of its range on (R151, R152). -/
theorem exists_word_answer_iff {k V W : Nat} {d : FixedWidthUint V} {i : Instr}
    (hi : ∀ precheck, replyOf precheck i = replyRecip precheck d) (hV : V = k + 1) (hW : W = V + 256) (s : State) :
    (∃ r, r < 2 ^ 256 ∧ exec i s = .next (s.answeredWith (wordResponse r))) ↔ 2 ^ k ≤ d.toNat := by
  constructor
  · rintro ⟨r, -, hr⟩
    by_contra hlt
    obtain ⟨c, hc⟩ := recipAnswer_of_lt s.cfg.recipPrecheck W (Nat.lt_of_not_le hlt)
    rw [exec_recip_eq hi hV hW, next_answeredWith_inj, hc] at hr
    exact wordResponse_ne_fault r c hr.symm
  · intro hge
    obtain ⟨hfits, hexec⟩ := exec_recip_of_ge hi hV hW hge
    exact ⟨_, hfits, hexec s⟩

/-- No leading zero is counted exactly when the top bit is set (R140). -/
theorem exec_hugeuintclz_zero_iff (A : U256) (s : State) :
    exec (.hugeuintclz A) s = .next (s.answeredWith (wordResponse 0)) ↔ 2 ^ 255 ≤ A.toNat := by
  have hsum := clzCount_add_size A
  have hsize : 255 < A.toNat.size ↔ 2 ^ 255 ≤ A.toNat := Nat.lt_size
  rw [exec_hugeuintclz, next_answeredWith_inj, wordResponse_inj (by omega) (by positivity), ← hsize]
  omega

/-! ## The obligations -/

/-- Settles O32: the result and `2^256` are together the floor quotient, at both widths. -/
theorem reciprocalStandsForTheLargestMultiplier : Obligations.ReciprocalStandsForTheLargestMultiplier := by
  refine ⟨fun d s hge => ?_, fun d s hge => ?_⟩
  · obtain ⟨hfits, hexec⟩ := exec_recip_of_ge (replyOf_hugeuintreciprocal d) rfl (W := 512) rfl hge
    exact ⟨_, hfits, hexec s, mul_le_max_iff rfl (by omega)⟩
  · obtain ⟨hfits, hexec⟩ := exec_recip_of_ge (replyOf_hugeuintreciprocal2 d) rfl (W := 768) rfl hge
    exact ⟨_, hfits, hexec s, mul_le_max_iff rfl (by omega)⟩

/-- Settles O33: both sides say that the divisor's top bit is set. -/
theorem zeroLeadingZerosIsTheReciprocalPrecondition : Obligations.ZeroLeadingZerosIsTheReciprocalPrecondition := by
  refine ⟨fun d s => ?_, fun d s => ?_⟩
  · rw [exec_hugeuintclz_zero_iff,
      exists_word_answer_iff (k := 255) (W := 512) (replyOf_hugeuintreciprocal d) rfl rfl s]
  · rw [exec_hugeuintclz_zero_iff, pow_le_hi_iff,
      exists_word_answer_iff (k := 511) (W := 768) (replyOf_hugeuintreciprocal2 d) rfl rfl s]

end Sys2Proof

/-!
PROOF. The step (R19, R80, R211): what one clock edge does in each phase, which move is chosen, and that a step makes
that move; a run of steps is then a chain of them.
-/

namespace Sys2Proof

open Machine

/-! ## One clock edge in each phase (R80, R200) -/

section
variable {s : State} {p : Pins}

theorem clockEdge_rst (hrst : p.rst = true) : s.clockEdge p = s.resetUnit := by
  rw [State.clockEdge, if_pos hrst]

theorem clockEdge_busy {cmd : Frame} (hrst : p.rst = false) (hp : s.phase = .busy cmd) : s.clockEdge p = s := by
  simp [State.clockEdge, hrst, cmdReady_busy s cmd hp, rspValid_busy s cmd hp]

theorem clockEdge_idle_of_not_valid (hrst : p.rst = false) (hp : s.phase = .idle) (hv : p.cmdValid = false) :
    s.clockEdge p = s := by
  simp [State.clockEdge, hrst, hv, rspValid_idle s hp]

theorem clockEdge_idle_of_valid (hrst : p.rst = false) (hp : s.phase = .idle) (hv : p.cmdValid = true) :
    s.clockEdge p =
      if p.cmdLast then s.accept (s.rx ++ [p.cmdData]) else { s with rx := s.rx ++ [p.cmdData] } := by
  simp [State.clockEdge, hrst, hv, cmdReady_idle s hp]

theorem clockEdge_resp_of_not_ready {rsp : Frame} (hrst : p.rst = false) (hp : s.phase = .resp rsp)
    (hr : p.rspReady = false) : s.clockEdge p = s := by
  simp [State.clockEdge, hrst, hr, cmdReady_resp s rsp hp]

theorem clockEdge_resp_of_ready {rsp : Frame} (hrst : p.rst = false) (hp : s.phase = .resp rsp)
    (hr : p.rspReady = true) :
    s.clockEdge p = if rsp.length ≤ s.taken + 1 then s.deliver else { s with taken := s.taken + 1 } := by
  simp [State.clockEdge, hrst, hr, cmdReady_resp s rsp hp, rspValid_resp s rsp hp, State.rspLast, hp]

theorem clockEdge_schedule : (s.clockEdge p).schedule = s.schedule :=
  (congrArg State.schedule (clockEdge_withSchedule s p s.schedule) :)

end

theorem deliver_keeps_schedule (s : State) : s.deliver.schedule = s.schedule := by
  cases hp : s.phase with
  | idle => simp [State.deliver, hp]
  | busy cmd => simp [State.deliver, hp]
  | resp rsp => exact deliver_schedule s rsp hp

/-! ## The chosen move -/

theorem execute_busy {s : State} {cmd : Frame} (hp : s.phase = .busy cmd) : s.execute = s.runFrame cmd := by
  rw [State.execute, hp]

theorem enabled_execute_iff (s : State) : s.enabled .execute = true ↔ ∃ cmd, s.phase = .busy cmd := by
  cases hp : s.phase <;> simp [State.enabled, hp]

/-- A step makes the chosen move, and leaves the schedule without it. -/
theorem step_of_chosen {s s' : State} {m : Move} (h : s.chosen = some (m, s')) :
    ∃ t, step s = .next t ∧ t.schedule = s'.schedule := by
  obtain ⟨henabled, hwhere⟩ := chosen_cases s m s' h
  rw [step, h]
  cases m with
  | accept f => exact ⟨_, rfl, rfl⟩
  | execute =>
    obtain ⟨cmd, hp⟩ := (enabled_execute_iff s).mp henabled
    have hp' : s'.phase = .busy cmd := by
      obtain ⟨a, b, -, rfl, -⟩ | ⟨-, rfl, -⟩ := hwhere
      · exact hp
      · exact hp
    exact ⟨_, (execute_busy hp').trans (runFrame_eq s' cmd), rfl⟩
  | deliver => exact ⟨_, rfl, deliver_keeps_schedule s'⟩
  | reset => exact ⟨_, rfl, rfl⟩
  | edge p => exact ⟨_, rfl, clockEdge_schedule⟩

theorem step_of_chosen_none {s : State} (h : s.chosen = none) : step s = .fault .noEnabledStep := by
  rw [step, h]

/-- Nothing is chosen when every scheduled move waits and the unit has nothing to execute (R19, R211). -/
theorem chosen_none_iff (s : State) :
    s.chosen = none ↔ (∀ m ∈ s.schedule, s.enabled m = false) ∧ s.enabled .execute = false := by
  rw [← firstEnabled_none, State.chosen]
  cases firstEnabled s.enabled s.schedule with
  | none => simp
  | some r => simp

section
variable {s : State} {rest : List Move}

theorem step_accept {f : Frame} (hp : s.phase = .idle) (hrx : s.rx = []) (hs : s.schedule = .accept f :: rest) :
    step s = .next (({ s with schedule := rest } : State).accept f) := by
  rw [step, chosen_head s _ rest hs (by rw [State.enabled, cmdReady_idle s hp, hrx]; rfl)]

theorem step_deliver {rsp : Frame} (hp : s.phase = .resp rsp) (hs : s.schedule = .deliver :: rest) :
    step s = .next ({ s with schedule := rest } : State).deliver := by
  rw [step, chosen_head s _ rest hs (rspValid_resp s rsp hp)]

theorem step_reset (hs : s.schedule = .reset :: rest) :
    step s = .next ({ s with schedule := rest } : State).resetUnit := by
  rw [step, chosen_head s _ rest hs rfl]

theorem step_edge {p : Pins} (hs : s.schedule = .edge p :: rest) :
    step s = .next (({ s with schedule := rest } : State).clockEdge p) := by
  rw [step, chosen_head s _ rest hs rfl]

end

section
variable {s : State} {cmd : Frame} (hp : s.phase = .busy cmd) {waiting : List Move}
  (hw : waiting.all Move.waitsInBusy = true)
include hp hw

theorem waiting_not_enabled : ∀ m ∈ waiting, s.enabled m = false := fun m hm =>
  waitsInBusy_not_enabled s cmd hp m (List.all_eq_true.mp hw m hm)

/-- With nothing but waiting moves scheduled, a busy unit executes by itself (R211). -/
theorem step_busy_of_waiting (hs : s.schedule = waiting) : step s = s.runFrame cmd := by
  have hnone := (firstEnabled_none s.enabled s.schedule).mpr (hs ▸ waiting_not_enabled hp hw)
  rw [step, State.chosen, hnone, if_pos ((enabled_execute_iff s).mpr ⟨cmd, hp⟩)]
  exact execute_busy hp

/-- Behind moves that wait, a busy unit takes its scheduled `execute` (R19). -/
theorem step_busy_of_execute {rest : List Move} (hs : s.schedule = waiting ++ .execute :: rest) :
    step s = ({ s with schedule := waiting ++ rest } : State).runFrame cmd := by
  have hexec := (enabled_execute_iff s).mpr ⟨cmd, hp⟩
  have hfirst : firstEnabled s.enabled s.schedule = some (.execute, waiting ++ rest) := by
    rw [hs, firstEnabled_skip _ _ _ (waiting_not_enabled hp hw), firstEnabled, if_pos hexec]
    rfl
  rw [step, State.chosen, hfirst]
  exact execute_busy hp

end

/-! ## Runs -/

theorem core_run_succ {M : Host.Core} {s t : M.State} (k : Nat) (h : M.step s = .next t) :
    M.run (k + 1) s = M.run k t := by
  rw [Host.Core.run, h]

theorem run_succ_of_step {s t : State} (k : Nat) (h : step s = .next t) :
    Sys2Proof.core.run (k + 1) s = Sys2Proof.core.run k t :=
  core_run_succ (M := Sys2Proof.core) k h

theorem runFrame_of_decode_ok {cmd : Frame} {i : Instr} (h : decode cmd = .ok i) (s : State) :
    s.runFrame cmd = exec i s := by
  rw [State.runFrame, h]

/-- A busy unit that is not reset answers its frame, or passes one clock edge of the schedule and stays as it is. -/
theorem step_busy_cases {s : State} {cmd : Frame} (hp : s.phase = .busy cmd)
    (hreset : ∀ m ∈ s.schedule, m ≠ .reset ∧ ∀ p, m = .edge p → p.rst = false) :
    ∃ sch, sch.Sublist s.schedule ∧
      (step s = .next (({ s with schedule := sch } : State).answeredWith (responseTo s.cfg.recipPrecheck cmd)) ∨
        sch.length < s.schedule.length ∧ step s = .next { s with schedule := sch }) := by
  have hexec := (enabled_execute_iff s).mpr ⟨cmd, hp⟩
  cases hc : s.chosen with
  | none => exact absurd hexec (by rw [((chosen_none_iff s).mp hc).2]; decide)
  | some r =>
    obtain ⟨m, s'⟩ := r
    obtain ⟨henabled, hwhere⟩ := chosen_cases s m s' hc
    cases m with
    | accept f => exact absurd henabled (by rw [waitsInBusy_not_enabled s cmd hp _ rfl]; decide)
    | deliver => exact absurd henabled (by rw [waitsInBusy_not_enabled s cmd hp _ rfl]; decide)
    | execute =>
      obtain ⟨sch, hsub, rfl⟩ : ∃ sch, sch.Sublist s.schedule ∧ s' = { s with schedule := sch } := by
        obtain ⟨a, b, hs, rfl, -⟩ | ⟨-, rfl, -⟩ := hwhere
        · exact ⟨a ++ b, by simp [hs], rfl⟩
        · exact ⟨s'.schedule, List.Sublist.refl _, rfl⟩
      refine ⟨sch, hsub, .inl ?_⟩
      rw [step, hc]
      exact (execute_busy (s := { s with schedule := sch }) hp).trans (runFrame_eq _ cmd)
    | reset =>
      obtain ⟨a, b, hs, -, -⟩ | ⟨hm, -⟩ := hwhere
      · exact absurd rfl (hreset .reset (by simp [hs])).1
      · cases hm
    | edge p =>
      obtain ⟨a, b, hs, rfl, -⟩ | ⟨hm, -⟩ := hwhere
      · have hrst : p.rst = false := (hreset (.edge p) (by simp [hs])).2 p rfl
        refine ⟨a ++ b, by simp [hs], .inr ⟨by simp [hs], ?_⟩⟩
        rw [step, hc]
        exact congrArg _ (clockEdge_busy (s := { s with schedule := a ++ b }) hrst hp)
      · cases hm

/-- A busy unit that is not reset reaches its answer, whatever else is scheduled (R211): every step but the last takes
a clock edge from the schedule and changes nothing else. -/
theorem exists_run_answeredWith (n : Nat) (s : State) (cmd : Frame) (hp : s.phase = .busy cmd)
    (hn : s.schedule.length ≤ n)
    (hreset : ∀ m ∈ s.schedule, m ≠ .reset ∧ ∀ p, m = .edge p → p.rst = false) :
    ∃ (k : Nat) (sch : List Move), k ≤ n + 1 ∧ Sys2Proof.core.run k s =
      .next (({ s with schedule := sch } : State).answeredWith (responseTo s.cfg.recipPrecheck cmd)) := by
  induction n generalizing s with
  | zero =>
    obtain ⟨sch, -, hanswer | ⟨hlt, -⟩⟩ := step_busy_cases hp hreset
    · exact ⟨1, sch, le_rfl, run_succ_of_step 0 hanswer⟩
    · omega
  | succ n ih =>
    obtain ⟨sch, hsub, hanswer | ⟨hlt, hedge⟩⟩ := step_busy_cases hp hreset
    · exact ⟨1, sch, by omega, run_succ_of_step 0 hanswer⟩
    · obtain ⟨k, sch', hk, hrun⟩ := ih { s with schedule := sch } hp (Nat.le_of_lt_succ (Nat.lt_of_lt_of_le hlt hn))
        fun m hm => hreset m (hsub.subset hm)
      exact ⟨k + 1, sch', Nat.succ_le_succ hk, (run_succ_of_step k hedge).trans hrun⟩

/-- From `IDLE` a frame that is accepted is executed next, and nothing but its answer is left of it (R19). -/
theorem run_accept_execute {s : State} {f : Frame} {rest : List Move} (hp : s.phase = .idle) (hrx : s.rx = [])
    (hs : s.schedule = .accept f :: .execute :: rest) (k : Nat) :
    Sys2Proof.core.run (k + 2) s = Sys2Proof.core.run k
      (({ s with schedule := rest } : State).answeredWith (responseTo s.cfg.recipPrecheck f)) := by
  rw [run_succ_of_step (k + 1) (step_accept hp hrx hs)]
  have hexec := step_busy_of_execute (s := ({ s with schedule := .execute :: rest } : State).accept f) (cmd := f) rfl
    (waiting := []) rfl rfl
  rw [runFrame_eq] at hexec
  rw [run_succ_of_step k hexec]
  congr 1
  rw [State.accept, State.answeredWith, State.answeredWith, hrx]
  rfl

/-! ## Which phase a step leads to -/

/-- A unit becomes busy only from `IDLE` (R19). -/
theorem phase_of_clockEdge_busy {s : State} {p : Pins} {cmd : Frame} (h : (s.clockEdge p).phase = .busy cmd) :
    s.phase = .idle ∨ s.phase = .busy cmd := by
  obtain ⟨-, he⟩ | ⟨-, hp, -⟩ | ⟨-, hp, -⟩ | ⟨-, rsp, hp, -, -, he⟩ | ⟨-, rsp, hp, -, -, he⟩ | ⟨-, he⟩ :=
    clockEdge_cases s p
  · rw [he] at h
    cases h
  · exact .inl hp
  · exact .inl hp
  · rw [he, deliver_phase s rsp hp] at h
    cases h
  · rw [he] at h
    exact .inr h
  · exact .inr (he ▸ h)

/-- An edge drops a held response with `rst`, or leaves it, or is the one that takes its last byte. -/
theorem clockEdge_resp_cases {s : State} (p : Pins) {rsp : Frame} (hp : s.phase = .resp rsp) :
    (p.rst = true ∧ s.clockEdge p = s.resetUnit) ∨
    ((s.clockEdge p).phase = .resp rsp ∧ (s.clockEdge p).received = s.received) ∨
    ((s.clockEdge p).phase = .idle ∧ (s.clockEdge p).received = s.received ++ [rsp]) := by
  cases hrst : p.rst with
  | true => exact .inl ⟨rfl, clockEdge_rst hrst⟩
  | false =>
    cases hr : p.rspReady with
    | false =>
      rw [clockEdge_resp_of_not_ready hrst hp hr]
      exact .inr (.inl ⟨hp, rfl⟩)
    | true =>
      rw [clockEdge_resp_of_ready hrst hp hr]
      split
      · exact .inr (.inr ⟨deliver_phase s rsp hp, deliver_received s rsp hp⟩)
      · exact .inr (.inl ⟨hp, rfl⟩)

/-- No edge takes a received response back. -/
theorem clockEdge_received_prefix (s : State) (p : Pins) : s.received <+: (s.clockEdge p).received := by
  obtain ⟨-, he⟩ | ⟨-, -, -, -, he⟩ | ⟨-, -, -, -, he⟩ | ⟨-, rsp, hp, -, -, he⟩ | ⟨-, rsp, hp, -, -, he⟩ | ⟨-, he⟩ :=
    clockEdge_cases s p
  · rw [he, resetUnit_received]
  · rw [he, accept_received]
  · rw [he]
  · rw [he, deliver_received s rsp hp]
    exact List.prefix_append _ _
  · rw [he]
  · rw [he]

theorem phase_of_step_busy {s t : State} {cmd : Frame} (hstep : step s = .next t) (ht : t.phase = .busy cmd) :
    s.phase = .idle ∨ s.phase = .busy cmd := by
  obtain ⟨sch, -, ⟨f, -, hp, -⟩ | ⟨cmd', -, rfl⟩ | ⟨rsp, hp, -, rfl⟩ | ⟨-, rfl⟩ | ⟨p, -, rfl⟩⟩ := step_cases s t hstep
  · exact .inl hp
  · cases ht
  · rw [deliver_phase { s with schedule := sch } rsp hp] at ht
    cases ht
  · cases ht
  · exact phase_of_clockEdge_busy (s := { s with schedule := sch }) ht

/-! ## The obligations -/

/-- Settles O40: the moves that wait are passed over, and the unit runs what its frame decodes to. -/
theorem stepRunsTheDecodedCommand : Obligations.StepRunsTheDecodedCommand := by
  intro s cmd i waiting rest hp hdec hw
  refine ⟨fun hs => ?_, fun hs => ?_⟩
  · rw [step_busy_of_waiting hp hw hs, runFrame_of_decode_ok hdec]
  · rw [step_busy_of_execute hp hw hs, runFrame_of_decode_ok hdec]

/-- Settles O41: the same steps, answering the fault of a frame that does not decode. -/
theorem stepAnswersADecodeFault : Obligations.StepAnswersADecodeFault := by
  intro s cmd waiting rest hp hw
  refine ⟨fun hs hdec => ?_, fun hs hdec => ?_, fun hs hdec => ?_, fun hs hdec => ?_, fun c => decode_error_cases⟩
  · exact (step_busy_of_waiting hp hw hs).trans (runFrame_of_decode_error hdec s)
  · exact (step_busy_of_waiting hp hw hs).trans (runFrame_of_decode_error hdec s)
  · exact (step_busy_of_execute hp hw hs).trans (runFrame_of_decode_error hdec _)
  · exact (step_busy_of_execute hp hw hs).trans (runFrame_of_decode_error hdec _)

/-- Settles O42: each move is enabled and stands first, so the step makes it. -/
theorem hostStepsDoWhatTheirRowsSay : Obligations.HostStepsDoWhatTheirRowsSay := by
  intro s rest
  refine ⟨fun f hp hrx hs => ?_, fun rsp hp hs => ?_, step_reset, fun p => step_edge⟩
  · rw [step_accept hp hrx hs, State.accept, ← hrx]
  · rw [step_deliver hp hs, deliver_eq { s with schedule := rest } rsp hp]

/-- Settles O43: an offer that waits is passed over and stays in front of what the step takes. -/
theorem offeredFrameWaitsOutsideIdle : Obligations.OfferedFrameWaitsOutsideIdle := by
  intro s t f rest hidle hs hstep
  refine ⟨?_, fun cmd ht => (phase_of_step_busy hstep ht).resolve_left hidle⟩
  have hwaits : s.enabled (.accept f) = false := by
    cases hp : s.phase with
    | idle => exact absurd hp hidle
    | busy cmd => rw [State.enabled, cmdReady_busy s cmd hp, Bool.false_and]
    | resp rsp => rw [State.enabled, cmdReady_resp s rsp hp, Bool.false_and]
  cases hc : s.chosen with
  | none =>
    rw [step_of_chosen_none hc] at hstep
    cases hstep
  | some r =>
    obtain ⟨m, s'⟩ := r
    obtain ⟨henabled, hwhere⟩ := chosen_cases s m s' hc
    obtain ⟨t', hstep', hsch⟩ := step_of_chosen hc
    rw [hstep] at hstep'
    cases hstep'
    rw [hsch]
    obtain ⟨a, b, hab, rfl, -⟩ | ⟨-, rfl, -⟩ := hwhere
    · rw [hs] at hab
      cases a with
      | nil =>
        cases hab
        rw [hwaits] at henabled
        cases henabled
      | cons m' a =>
        cases hab
        exact ⟨a ++ b, rfl, by simp⟩
    · exact ⟨rest, hs, List.Sublist.refl _⟩

/-- Settles O44: no step but the answer, the taking and a reset that was scheduled empties a latch. -/
theorem latchesAreHeldUntilAnsweredTakenOrReset : Obligations.LatchesAreHeldUntilAnsweredTakenOrReset := by
  intro s t hstep
  obtain ⟨sch, -, hmove⟩ := step_cases s t hstep
  refine ⟨fun cmd hp => ?_, fun rsp hp => ?_⟩
  · obtain ⟨f, -, hidle, -⟩ | ⟨cmd', -, rfl⟩ | ⟨rsp, hresp, -⟩ | ⟨hmem, rfl⟩ | ⟨p, hmem, rfl⟩ := hmove
    · cases hp.symm.trans hidle
    · exact .inr (.inl ⟨_, rfl⟩)
    · cases hp.symm.trans hresp
    · exact .inr (.inr ⟨rfl, rfl, .reset, hmem, .inl rfl⟩)
    · cases hrst : p.rst with
      | true =>
        rw [clockEdge_rst hrst]
        exact .inr (.inr ⟨rfl, rfl, .edge p, hmem, .inr ⟨p, rfl, hrst⟩⟩)
      | false =>
        rw [clockEdge_busy (s := { s with schedule := sch }) hrst hp]
        exact .inl hp
  · obtain ⟨f, -, hidle, -⟩ | ⟨cmd, hbusy, -⟩ | ⟨rsp', -, -, rfl⟩ | ⟨hmem, rfl⟩ | ⟨p, hmem, rfl⟩ := hmove
    · cases hp.symm.trans hidle
    · cases hp.symm.trans hbusy
    · rw [deliver_eq { s with schedule := sch } rsp hp]
      exact .inr (.inl ⟨rfl, rfl⟩)
    · exact .inr (.inr ⟨rfl, rfl, .reset, hmem, .inl rfl⟩)
    · obtain ⟨hrst, hreset⟩ | hheld | htaken := clockEdge_resp_cases (s := { s with schedule := sch }) p hp
      · rw [hreset]
        exact .inr (.inr ⟨rfl, rfl, .edge p, hmem, .inr ⟨p, rfl, hrst⟩⟩)
      · exact .inl hheld
      · exact .inr (.inl htaken)

/-- Settles O46: a step stops exactly when it has no move to choose. -/
theorem machineStopsExactlyWhenNoStepIsEnabled : Obligations.MachineStopsExactlyWhenNoStepIsEnabled := by
  intro s
  have hstop : step s = .fault .noEnabledStep ↔ s.chosen = none := by
    refine ⟨fun h => ?_, step_of_chosen_none⟩
    cases hc : s.chosen with
    | none => rfl
    | some r =>
      obtain ⟨t, ht, -⟩ := step_of_chosen (m := r.1) (s' := r.2) hc
      rw [ht] at h
      cases h
  rw [hstop, chosen_none_iff, and_comm]
  cases hp : s.phase <;> simp [State.enabled, hp]

/-- Settles O47: the one function is `responseTo`, and the state gives it the parameter only. -/
theorem responseIsAFunctionOfFrameAndParameter : Obligations.ResponseIsAFunctionOfFrameAndParameter := by
  refine ⟨responseTo, fun s cmd hp => ⟨fun hs => ?_, fun rest hs => ?_⟩⟩
  · exact (step_busy_of_waiting hp (waiting := []) rfl hs).trans (runFrame_eq s cmd)
  · exact (step_busy_of_execute hp (waiting := []) rfl hs).trans (runFrame_eq _ cmd)

/-- Settles O49: the run to the answer, which is legal as every response is. -/
theorem everyAcceptedCommandIsAnswered : Obligations.EveryAcceptedCommandIsAnswered := by
  intro s cmd hp hreset
  obtain ⟨k, sch, hk, hrun⟩ := exists_run_answeredWith _ s cmd hp le_rfl hreset
  exact ⟨k, _, _, hk, hrun, rfl, runFrame_eq s cmd, responseTo_legal s.cfg cmd⟩

/-- Settles O50: the three steps of one transaction. -/
theorem transactionReturnsToIdleWithOneResponse : Obligations.TransactionReturnsToIdleWithOneResponse := by
  intro s f rest hp hrx htaken hs
  refine ⟨_, runFrame_eq s f, responseTo_legal s.cfg f, ?_⟩
  rw [run_accept_execute hp hrx hs,
    run_succ_of_step 0 (step_deliver (rsp := responseTo s.cfg.recipPrecheck f) rfl rfl), deliver_eq _ _ rfl]
  simp only [Host.Core.run, State.answeredWith, hp, htaken]

/-- Settles O51: after the taking, both units accept and execute the frame from `IDLE`. -/
theorem faultsAreNotSticky : Obligations.FaultsAreNotSticky := by
  intro s rsp f rest hp hrx hs
  have hdeliver := step_deliver hp hs
  rw [deliver_eq { s with schedule := .accept f :: .execute :: rest } rsp hp] at hdeliver
  refine ⟨responseTo s.cfg.recipPrecheck f, ?_, ?_⟩
  · rw [run_succ_of_step 2 hdeliver]
    exact run_accept_execute (s := { s with
      phase := .idle, taken := 0, schedule := .accept f :: .execute :: rest, received := s.received ++ [rsp] })
      rfl hrx rfl 0
  · exact run_accept_execute (s := { State.resetWith s.cfg with schedule := [.accept f, .execute] }) rfl rfl rfl 0

/-- Settles O45: only the taking of a response touches what the host has received, and a chosen move is always made. -/
theorem noStepChangesTheParameter : Obligations.NoStepChangesTheParameter := by
  intro s
  refine ⟨fun t hstep => ?_, fun r hrefused => ?_⟩
  · obtain ⟨sch, -, ⟨f, -, -, -, rfl⟩ | ⟨cmd, -, rfl⟩ | ⟨rsp, hp, -, rfl⟩ | ⟨-, rfl⟩ | ⟨p, -, rfl⟩⟩ := step_cases s t hstep
    · exact ⟨rfl, List.prefix_rfl⟩
    · exact ⟨rfl, List.prefix_rfl⟩
    · rw [deliver_eq { s with schedule := sch } rsp hp]
      exact ⟨rfl, List.prefix_append _ _⟩
    · exact ⟨rfl, List.prefix_rfl⟩
    · exact ⟨clockEdge_cfg _ p, clockEdge_received_prefix { s with schedule := sch } p⟩
  · cases hc : s.chosen with
    | none =>
      rw [step_of_chosen_none hc] at hrefused
      cases hrefused
    | some m =>
      obtain ⟨t, ht, -⟩ := step_of_chosen (m := m.1) (s' := m.2) hc
      rw [ht] at hrefused
      cases hrefused

/-- Settles O52: the fields that `reset` and `resetUnit` set. -/
theorem resetLeavesIdleAndTheParameter : Obligations.ResetLeavesIdleAndTheParameter :=
  ⟨fun _ => ⟨rfl, rfl, rfl, rfl⟩, rfl, fun _ => rfl⟩

end Sys2Proof

/-!
PROOF. The invariant (R10 to R12, R75, R80): what it says in each phase, and that accepting, answering, taking,
resetting and a clock edge each keep it; a step is one of these.
-/

namespace Sys2Proof

open Machine

/-- Every response the host has received is legal. -/
def ReceivedLegal (s : State) : Prop := s.received.all (legalResponse s.cfg) = true

/-! ## The invariant in each phase -/

theorem inv_idle_iff {s : State} (hp : s.phase = .idle) : s.inv = true ↔ s.taken = 0 ∧ ReceivedLegal s := by
  rw [State.inv, phaseOk, hp, Bool.and_eq_true, beq_iff_eq, ReceivedLegal]

theorem inv_busy_iff {s : State} {cmd : Frame} (hp : s.phase = .busy cmd) :
    s.inv = true ↔ (s.taken = 0 ∧ s.rx = []) ∧ ReceivedLegal s := by
  rw [State.inv, phaseOk, hp, Bool.and_eq_true, Bool.and_eq_true, beq_iff_eq, List.isEmpty_iff, ReceivedLegal]

theorem inv_resp_iff {s : State} {rsp : Frame} (hp : s.phase = .resp rsp) :
    s.inv = true ↔
      ((s.rx = [] ∧ legalResponse s.cfg rsp = true) ∧ s.taken < rsp.length) ∧ ReceivedLegal s := by
  rw [State.inv, phaseOk, hp, Bool.and_eq_true, Bool.and_eq_true, Bool.and_eq_true, List.isEmpty_iff,
    decide_eq_true_iff, ReceivedLegal]

theorem receivedLegal_of_inv {s : State} (h : s.inv = true) : ReceivedLegal s := (Bool.and_eq_true_iff.mp h).2

/-- No legal response is empty (R75). -/
theorem length_pos_of_legalResponse {c : Config} {rsp : Frame} (h : legalResponse c rsp = true) : 0 < rsp.length := by
  cases rsp with
  | nil => cases h
  | cons b s => exact Nat.succ_pos _

/-! ## The operations keep it -/

section
variable {s : State} (h : s.inv = true)
include h

theorem inv_accept (hp : s.phase = .idle) (f : Frame) : (s.accept f).inv = true := by
  obtain ⟨htaken, hlegal⟩ := (inv_idle_iff hp).mp h
  exact (inv_busy_iff (accept_phase f s)).mpr ⟨⟨htaken, rfl⟩, hlegal⟩

theorem inv_answeredWith {cmd rsp : Frame} (hp : s.phase = .busy cmd) (hrsp : legalResponse s.cfg rsp = true) :
    (s.answeredWith rsp).inv = true := by
  obtain ⟨⟨-, hrx⟩, hlegal⟩ := (inv_busy_iff hp).mp h
  exact (inv_resp_iff (answeredWith_phase rsp s)).mpr ⟨⟨⟨hrx, hrsp⟩, length_pos_of_legalResponse hrsp⟩, hlegal⟩

theorem inv_deliver {rsp : Frame} (hp : s.phase = .resp rsp) : s.deliver.inv = true := by
  obtain ⟨⟨⟨-, hrsp⟩, -⟩, hlegal⟩ := (inv_resp_iff hp).mp h
  refine (inv_idle_iff (deliver_phase s rsp hp)).mpr ⟨deliver_taken s rsp hp, ?_⟩
  rw [ReceivedLegal, deliver_received s rsp hp, deliver_cfg s rsp hp, List.all_append, hlegal, List.all_cons, hrsp]
  rfl

theorem inv_resetUnit : s.resetUnit.inv = true :=
  (inv_idle_iff (resetUnit_phase s)).mpr ⟨rfl, receivedLegal_of_inv (s := s) h⟩

theorem inv_clockEdge (p : Pins) : (s.clockEdge p).inv = true := by
  obtain ⟨-, he⟩ | ⟨-, hp, -, -, he⟩ | ⟨-, hp, -, -, he⟩ | ⟨-, rsp, hp, -, -, he⟩ | ⟨-, rsp, hp, -, hmore, he⟩ |
    ⟨-, he⟩ := clockEdge_cases s p <;> rw [he]
  · exact inv_resetUnit h
  · exact inv_accept h hp _
  · exact (inv_idle_iff (s := { s with rx := s.rx ++ [p.cmdData] }) hp).mpr ((inv_idle_iff hp).mp h)
  · exact inv_deliver h hp
  · obtain ⟨⟨hlatch, -⟩, hlegal⟩ := (inv_resp_iff hp).mp h
    exact (inv_resp_iff (s := { s with taken := s.taken + 1 }) hp).mpr ⟨⟨hlatch, hmore⟩, hlegal⟩
  · exact h

end

/-! ## The obligations -/

/-- Settles O53: after reset nothing is in progress and nothing has been received. -/
theorem resetMeetsTheInvariant : Obligations.ResetMeetsTheInvariant := by
  intro c
  exact (inv_idle_iff (resetWith_phase c)).mpr ⟨rfl, rfl⟩

/-- Settles O54: the invariant does not read the schedule, and each move a step can make keeps it. -/
theorem everyStepKeepsTheInvariant : Obligations.EveryStepKeepsTheInvariant := by
  intro s t h hstep
  obtain ⟨sch, -, hmove⟩ := step_cases s t hstep
  have hsch : ({ s with schedule := sch } : State).inv = true := h
  obtain ⟨f, -, hp, -, rfl⟩ | ⟨cmd, hp, rfl⟩ | ⟨rsp, hp, -, rfl⟩ | ⟨-, rfl⟩ | ⟨p, -, rfl⟩ := hmove
  · exact inv_accept hsch hp f
  · exact inv_answeredWith hsch hp (responseTo_legal s.cfg cmd)
  · exact inv_deliver hsch hp
  · exact inv_resetUnit hsch
  · exact inv_clockEdge hsch p

end Sys2Proof

/-!
PROOF. The two channels (R80, R200, R203): a frame's bytes are collected one by one and a response's bytes taken one by
one, by induction on the edges with the bytes that have already moved; a run of steps over edges is those edges.
-/

namespace Sys2Proof

open Machine

/-! ## Sequences of edges -/

theorem afterEdges_cons (s : State) (p : Pins) (ps : List Pins) :
    s.afterEdges (p :: ps) = (s.clockEdge p).afterEdges ps := rfl

theorem rst_low_of_all {p : Pins} {ps : List Pins} (h : (p :: ps).all (fun p => !p.rst) = true) :
    p.rst = false ∧ ps.all (fun p => !p.rst) = true := by
  rwa [List.all_cons, Bool.and_eq_true, Bool.not_eq_true'] at h

/-- Edges that stand first in the schedule are made one after another, and the rest of it stays (R80). -/
theorem run_edges (ps : List Pins) (s : State) (rest : List Move) (hs : s.schedule = ps.map Move.edge ++ rest) :
    Sys2Proof.core.run ps.length s = .next (({ s with schedule := rest } : State).afterEdges ps) := by
  induction ps generalizing s with
  | nil =>
    have hrest : ({ s with schedule := rest } : State) = s := by rw [← List.nil_append rest, ← List.map_nil, ← hs]
    rw [hrest]
    rfl
  | cons p ps ih =>
    have hstep : step s = .next (({ s with schedule := ps.map Move.edge ++ rest } : State).clockEdge p) := step_edge hs
    have hrun := ih (({ s with schedule := ps.map Move.edge ++ rest } : State).clockEdge p) clockEdge_schedule
    rw [← clockEdge_withSchedule] at hrun
    rw [List.length_cons, run_succ_of_step _ hstep]
    exact hrun

/-- While the unit is busy no edge without `rst` changes anything (R203). -/
theorem afterEdges_busy {s : State} {cmd : Frame} (hp : s.phase = .busy cmd) {ps : List Pins}
    (hrst : ps.all (fun p => !p.rst) = true) : s.afterEdges ps = s := by
  induction ps with
  | nil => rfl
  | cons p ps ih =>
    obtain ⟨hlow, hrest⟩ := rst_low_of_all hrst
    rw [afterEdges_cons, clockEdge_busy hlow hp, ih hrest]

/-! ## The command channel -/

/-- Edges that carry the rest of a frame complete the frame that is being collected (R80). -/
theorem afterEdges_frame (ps : List Pins) (s : State) (f : Frame) (hp : s.phase = .idle) (hf : f ≠ [])
    (hrst : ps.all (fun p => !p.rst) = true)
    (hbytes : (ps.filter (·.cmdValid)).map (fun p => (p.cmdData, p.cmdLast)) = markLast f) :
    s.afterEdges ps = s.accept (s.rx ++ f) := by
  induction ps generalizing s f with
  | nil =>
    cases f with
    | nil => exact absurd rfl hf
    | cons b f => cases f <;> cases hbytes
  | cons p ps ih =>
    obtain ⟨hlow, hrest⟩ := rst_low_of_all hrst
    rw [afterEdges_cons]
    cases hv : p.cmdValid with
    | false =>
      rw [List.filter_cons_of_neg (by rw [hv]; decide)] at hbytes
      rw [clockEdge_idle_of_not_valid hlow hp hv, ih s f hp hf hrest hbytes]
    | true =>
      rw [List.filter_cons_of_pos hv, List.map_cons] at hbytes
      rw [clockEdge_idle_of_valid hlow hp hv]
      match f, hf with
      | [b], _ =>
        obtain ⟨hpair, -⟩ := List.cons.inj hbytes
        obtain ⟨rfl, hlast⟩ := Prod.mk.inj hpair
        rw [hlast, if_pos rfl, afterEdges_busy (accept_phase _ s) hrest]
      | b :: c :: f, _ =>
        obtain ⟨hpair, htail⟩ := List.cons.inj hbytes
        obtain ⟨rfl, hlast⟩ := Prod.mk.inj hpair
        rw [hlast, if_neg Bool.false_ne_true,
          ih { s with rx := s.rx ++ [p.cmdData] } (c :: f) hp (List.cons_ne_nil c f) hrest htail, List.append_assoc]
        rfl

/-! ## The response channel -/

section
variable {s : State} {rsp : Frame} {p : Pins} (hp : s.phase = .resp rsp) (hrst : p.rst = false)
include hp hrst

theorem bytesTaken_cons_of_ready (hr : p.rspReady = true) (ps : List Pins) :
    s.bytesTaken (p :: ps) = rsp.getD s.taken 0x00#8 :: (s.clockEdge p).bytesTaken ps := by
  simp [State.bytesTaken, hrst, hr, rspValid_resp s rsp hp, State.rspData, hp]

theorem bytesTaken_cons_of_not_ready (hr : p.rspReady = false) (ps : List Pins) :
    s.bytesTaken (p :: ps) = s.bytesTaken ps := by
  rw [State.bytesTaken, hr, Bool.and_false, Bool.false_and, if_neg Bool.false_ne_true,
    clockEdge_resp_of_not_ready hrst hp hr]

end

/-- In `IDLE` without an offer nothing moves on either channel. -/
theorem edges_idle {s : State} (hp : s.phase = .idle) {ps : List Pins}
    (hquiet : ps.all (fun p => !p.rst && !p.cmdValid) = true) : s.afterEdges ps = s ∧ s.bytesTaken ps = [] := by
  induction ps with
  | nil => exact ⟨rfl, rfl⟩
  | cons p ps ih =>
    rw [List.all_cons, Bool.and_eq_true, Bool.and_eq_true, Bool.not_eq_true', Bool.not_eq_true'] at hquiet
    obtain ⟨⟨hlow, hv⟩, hrest⟩ := hquiet
    rw [afterEdges_cons, State.bytesTaken, rspValid_idle s hp, Bool.and_false, if_neg Bool.false_ne_true,
      clockEdge_idle_of_not_valid hlow hp hv]
    exact ih hrest

/-- Edges that take the rest of a response deliver it, and the bytes that move are those not taken before (R80). -/
theorem edges_response (ps : List Pins) (s : State) (rsp : Frame) (p : Pins) (qs : List Pins)
    (hp : s.phase = .resp rsp) (hrst : ps.all (fun p => !p.rst) = true)
    (hcount : s.taken + ((ps.filter (·.rspReady)).length + 1) = rsp.length) (hlow : p.rst = false)
    (hr : p.rspReady = true) (hquiet : qs.all (fun p => !p.rst && !p.cmdValid) = true) :
    s.afterEdges (ps ++ p :: qs) = s.deliver ∧ s.bytesTaken (ps ++ p :: qs) = rsp.drop s.taken := by
  induction ps generalizing s with
  | nil =>
    have hlast : rsp.length = s.taken + 1 := by simpa using hcount.symm
    have hedge : s.clockEdge p = s.deliver := by rw [clockEdge_resp_of_ready hlow hp hr, if_pos hlast.le]
    obtain ⟨hstate, hnone⟩ := edges_idle (deliver_phase s rsp hp) hquiet
    rw [List.nil_append, afterEdges_cons, bytesTaken_cons_of_ready hp hlow hr, hedge, hnone]
    refine ⟨hstate, ?_⟩
    rw [List.drop_eq_getElem_cons (by omega), List.drop_of_length_le (by omega), List.getD_eq_getElem _ _ (by omega)]
  | cons q ps ih =>
    obtain ⟨hqlow, hrest⟩ := rst_low_of_all hrst
    rw [List.cons_append, afterEdges_cons]
    cases hq : q.rspReady with
    | false =>
      rw [List.filter_cons_of_neg (by rw [hq]; decide)] at hcount
      rw [clockEdge_resp_of_not_ready hqlow hp hq, bytesTaken_cons_of_not_ready hp hqlow hq]
      exact ih s hp hrest hcount
    | true =>
      rw [List.filter_cons_of_pos hq, List.length_cons] at hcount
      have hedge : s.clockEdge q = { s with taken := s.taken + 1 } := by
        rw [clockEdge_resp_of_ready hqlow hp hq, if_neg (by omega)]
      have hcount' : s.taken + 1 + ((ps.filter (·.rspReady)).length + 1) = rsp.length := by
        rw [Nat.add_assoc, Nat.add_comm 1]
        exact hcount
      obtain ⟨hstate, hbytes⟩ := ih { s with taken := s.taken + 1 } hp hrest hcount'
      rw [bytesTaken_cons_of_ready hp hqlow hq, hedge, hstate, hbytes, deliver_eq s rsp hp,
        deliver_eq { s with taken := s.taken + 1 } rsp hp]
      refine ⟨rfl, ?_⟩
      rw [List.drop_eq_getElem_cons (i := s.taken) (by omega), List.getD_eq_getElem _ _ (by omega)]

/-! ## The obligations -/

/-- Settles O55: the whole frame from an empty collection; the steps over the edges are the edges. -/
theorem frameSentByteByByteIsAccepted : Obligations.FrameSentByteByByteIsAccepted := by
  intro s f ps hp hrx hf hrst hbytes
  refine ⟨?_, fun rest hs => ?_⟩
  · rw [afterEdges_frame ps s f hp hf hrst hbytes, hrx, List.nil_append]
  · rw [run_edges ps s rest hs, afterEdges_frame ps { s with schedule := rest } f hp hf hrst hbytes, hrx,
      List.nil_append]

/-- Settles O56: the whole response from its first byte; the steps over the edges are the edges. -/
theorem responseTakenByteByByteIsDelivered : Obligations.ResponseTakenByteByByteIsDelivered := by
  intro s rsp ps p qs hp htaken hrst hcount hlow hr hquiet
  have hcount' : s.taken + ((ps.filter (·.rspReady)).length + 1) = rsp.length := by rw [htaken, Nat.zero_add, hcount]
  obtain ⟨hstate, hbytes⟩ := edges_response ps s rsp p qs hp hrst hcount' hlow hr hquiet
  refine ⟨hstate, by rw [hbytes, htaken, List.drop_zero], fun rest hs => ?_⟩
  rw [run_edges _ s rest hs]
  exact congrArg _ (edges_response ps { s with schedule := rest } rsp p qs hp hrst hcount' hlow hr hquiet).1

/-- Settles O57: the edges of each phase at which nothing moves, and that `RESP` collects and accepts nothing. -/
theorem bytesMoveOnlyWhereTheChannelIsReady : Obligations.BytesMoveOnlyWhereTheChannelIsReady := by
  intro s p hrst
  refine ⟨fun cmd hp => clockEdge_busy hrst hp, clockEdge_idle_of_not_valid hrst,
    fun rsp hp => clockEdge_resp_of_not_ready hrst hp, fun rsp hp => ⟨?_, fun cmd hbusy => ?_⟩⟩
  · cases hr : p.rspReady with
    | false => rw [clockEdge_resp_of_not_ready hrst hp hr]
    | true =>
      rw [clockEdge_resp_of_ready hrst hp hr]
      split
      · exact deliver_rx s rsp hp
      · rfl
  · obtain hidle | hheld := phase_of_clockEdge_busy hbusy
    · cases hp.symm.trans hidle
    · cases hp.symm.trans hheld

/-- Settles O58: the edge is a reset, after which nothing is collected. -/
theorem resetEdgeDropsTransfersInProgress : Obligations.ResetEdgeDropsTransfersInProgress := by
  intro s f p ps hrst hf hlow hbytes
  refine ⟨clockEdge_rst hrst, ?_⟩
  rw [afterEdges_cons, clockEdge_rst hrst, afterEdges_frame ps s.resetUnit f (resetUnit_phase s) hf hlow hbytes]
  rfl

end Sys2Proof

/-!
PROOF. Text (R90, R91, R75): a digit's reader and its spelling agree, and from them bytes, parameters, words and lines,
so that a line assembles exactly when it is written as R90 says; a response's numbers are read back from its words.
-/

namespace Sys2Proof

open Machine

/-! ## Digits and bytes (R90) -/

/-- The digits of a number in the two letter cases, by their codes. -/
theorem isHexDigitOf_iff (c : Char) (n : Nat) :
    isHexDigitOf c n = true ↔
      n < 10 ∧ c.toNat = 48 + n ∨ 10 ≤ n ∧ n < 16 ∧ (c.toNat = 87 + n ∨ c.toNat = 55 + n) := by
  by_cases hn : n < 16
  · interval_cases n <;> simp only [isHexDigitOf, List.getElem?_cons_zero, List.getElem?_cons_succ, Bool.or_eq_true,
      beq_iff_eq, Option.some.injEq, ← Char.toNat_inj, Char.reduceToNat] <;> omega
  · have hnone : ∀ l : List Char, l.length = 16 → l[n]? = none := fun l hl => List.getElem?_eq_none (by omega)
    rw [isHexDigitOf, hnone _ rfl, hnone _ rfl]
    simp
    omega

theorem hexDigit_eq_some_iff (c : Char) (n : Nat) : hexDigit c = some n ↔ isHexDigitOf c n = true := by
  rw [isHexDigitOf_iff]
  simp only [hexDigit]
  split_ifs <;> simp <;> omega

theorem isHexDigitOf_lt {c : Char} {n : Nat} (h : isHexDigitOf c n = true) : n < 16 := by
  rw [isHexDigitOf_iff] at h
  omega

/-- Two digits and the byte they spell determine each other. -/
theorem ofNat_digits_eq_iff {x y : Nat} (hx : x < 16) (hy : y < 16) (b : Byte) :
    BitVec.ofNat 8 (16 * x + y) = b ↔ b.toNat / 16 = x ∧ b.toNat % 16 = y := by
  have hb := b.isLt
  rw [← BitVec.toNat_inj, BitVec.toNat_ofNat]
  omega

theorem hexBytes_eq_some_iff (cs : List Char) (s : Frame) : hexBytes cs = some s ↔ spells cs s = true := by
  induction cs using hexBytes.induct generalizing s with
  | case1 => cases s <;> simp [hexBytes, spells]
  | case2 c => cases s <;> simp [hexBytes, spells]
  | case3 h l rest ih =>
    cases s with
    | nil => simp [hexBytes, spells, Option.bind_eq_some_iff]
    | cons b s =>
      simp only [hexBytes, spells, Option.bind_eq_bind, Option.bind_eq_some_iff, Option.pure_def, Option.some.injEq,
        List.cons.injEq, Bool.and_eq_true, hexDigit_eq_some_iff, ih]
      constructor
      · rintro ⟨x, hx, y, hy, s', hs, hb, rfl⟩
        obtain ⟨rfl, rfl⟩ := (ofNat_digits_eq_iff (isHexDigitOf_lt hx) (isHexDigitOf_lt hy) b).mp hb
        exact ⟨⟨hx, hy⟩, hs⟩
      · rintro ⟨⟨hx, hy⟩, hs⟩
        exact ⟨_, hx, _, hy, s, hs,
          (ofNat_digits_eq_iff (isHexDigitOf_lt hx) (isHexDigitOf_lt hy) b).mpr ⟨rfl, rfl⟩, rfl⟩

/-- `x` is no digit, so that digits never begin with `0x`. -/
theorem spells_zero_x (rest : List Char) (s : Frame) : spells ('0' :: 'x' :: rest) s = false := by
  cases s with
  | nil => rfl
  | cons b s =>
    have hx : isHexDigitOf 'x' (b.toNat % 16) = false := by
      rw [Bool.eq_false_iff, Ne, isHexDigitOf_iff]
      simp
      omega
    rw [spells, hx, Bool.and_false, Bool.false_and]

theorem digitsOf_of_take_ne {p : List Char} (h : p.take 2 ≠ ['0', 'x']) : digitsOf p = p := by
  unfold digitsOf
  split
  · exact absurd rfl h
  · rfl

theorem paramBytes_eq_some_iff (p : List Char) (s : Frame) : paramBytes p = some s ↔ spellsParam p s = true := by
  rw [paramBytes, hexBytes_eq_some_iff, spellsParam]
  by_cases hzx : p.take 2 = ['0', 'x']
  · obtain ⟨rest, rfl⟩ : ∃ rest, p = '0' :: 'x' :: rest := ⟨p.drop 2, by rw [← List.take_append_drop 2 p, hzx]; rfl⟩
    rw [digitsOf, spells_zero_x, Bool.false_or]
    rfl
  · have hdigits : digitsOf p = p := digitsOf_of_take_ne hzx
    have hno : (p.take 2 == ['0', 'x']) = false := beq_eq_false_iff_ne.mpr hzx
    rw [hdigits, hno, Bool.false_and, Bool.or_false]

/-! ## Words and lines (R90) -/

/-- What is written, a space in front of each of the words. -/
def spaced (words : List (List Char)) : List Char := (words.map fun w => ' ' :: w).flatten

theorem spaced_cons (w : List Char) (words : List (List Char)) : spaced (w :: words) = ' ' :: (w ++ spaced words) := by
  simp [spaced]

theorem wordsFrom_cons_of_ne (w : List Char) {c : Char} (hc : c ≠ ' ') (cs : List Char) :
    wordsFrom w (c :: cs) = wordsFrom (c :: w) cs :=
  wordsFrom.eq_3 w c cs hc

/-- The words of a line, joined by single spaces, are the line. -/
theorem exists_wordsFrom (acc line : List Char) :
    ∃ w words, wordsFrom acc line = w :: words ∧ acc.reverse ++ line = w ++ spaced words := by
  induction line generalizing acc with
  | nil => exact ⟨_, _, rfl, rfl⟩
  | cons c cs ih =>
    by_cases hc : c = ' '
    · obtain ⟨w, words, hwords, hjoin⟩ := ih []
      subst hc
      refine ⟨acc.reverse, w :: words, by rw [wordsFrom, hwords], ?_⟩
      rw [spaced_cons, ← hjoin, List.reverse_nil, List.nil_append]
    · obtain ⟨w, words, hwords, hjoin⟩ := ih (c :: acc)
      refine ⟨w, words, by rw [wordsFrom_cons_of_ne _ hc, hwords], ?_⟩
      rw [← hjoin, List.reverse_cons, List.append_assoc, List.singleton_append]

/-- A word is read as a whole. -/
theorem wordsFrom_append (acc w rest : List Char) (hw : ' ' ∉ w) :
    wordsFrom acc (w ++ rest) = wordsFrom (w.reverse ++ acc) rest := by
  induction w generalizing acc with
  | nil => rfl
  | cons c w ih =>
    obtain ⟨hc, hrest⟩ := not_or.mp (List.mem_cons.not.mp hw)
    rw [List.cons_append, wordsFrom_cons_of_ne _ (Ne.symm hc), ih _ hrest, List.reverse_cons, List.append_assoc,
      List.singleton_append]

/-- Words without spaces are read back from the line that joins them. -/
theorem wordsFrom_spaced (acc : List Char) (words : List (List Char)) (hwords : ∀ w ∈ words, ' ' ∉ w) :
    wordsFrom acc (spaced words) = acc.reverse :: words := by
  induction words generalizing acc with
  | nil => rfl
  | cons w words ih =>
    obtain ⟨hw, hrest⟩ := List.forall_mem_cons.mp hwords
    rw [spaced_cons, wordsFrom, wordsFrom_append _ _ _ hw, ih _ hrest, List.append_nil, List.reverse_reverse]

/-! ## Descriptors (R37, R61) -/

theorem lengths_ok_iff (operands : List Frame) (lengths : List Nat) :
    ((operands.length == lengths.length) && (operands.zip lengths).all fun p => p.1.length == p.2) = true ↔
      operands.map List.length = lengths := by
  induction operands generalizing lengths with
  | nil => cases lengths <;> simp
  | cons a operands ih =>
    cases lengths with
    | nil => simp
    | cons n lengths =>
      rw [List.map_cons, List.cons.injEq, ← ih lengths]
      simp [and_left_comm]

theorem wellFormed_iff (d : Descriptor) :
    d.wellFormed = true ↔ d.operands.map List.length = d.command.format.operandBytes :=
  lengths_ok_iff d.operands d.command.format.operandBytes

/-! ## Mnemonics and parameters -/

theorem commandNamed_mnemonic (c : Command) : commandNamed (mnemonic c) = some c := by
  cases c <;> rfl

theorem commandNamed_eq_some_iff (w : List Char) (c : Command) : commandNamed w = some c ↔ w = mnemonic c := by
  constructor
  · intro h
    obtain ⟨r, hr, rfl⟩ := Option.map_eq_some_iff.mp h
    have hname := List.find?_some (p := fun r : OpcodeRow => mnemonic r.command == w) hr
    exact (eq_of_beq hname).symm
  · rintro rfl
    exact commandNamed_mnemonic c

theorem space_not_mem_mnemonic (c : Command) : ' ' ∉ mnemonic c := by
  cases c <;> decide

theorem space_not_digit (n : Nat) : isHexDigitOf ' ' n = false := by
  rw [Bool.eq_false_iff, Ne, isHexDigitOf_iff]
  simp
  omega

theorem space_not_mem_of_spells {cs : List Char} {s : Frame} (h : spells cs s = true) : ' ' ∉ cs := by
  induction cs using hexBytes.induct generalizing s with
  | case1 => exact List.not_mem_nil
  | case2 c => cases s <;> cases h
  | case3 x y rest ih =>
    cases s with
    | nil => cases h
    | cons b s =>
      rw [spells, Bool.and_eq_true, Bool.and_eq_true] at h
      obtain ⟨⟨hx, hy⟩, hrest⟩ := h
      rw [List.mem_cons, List.mem_cons, not_or, not_or]
      refine ⟨?_, ?_, ih hrest⟩
      · rintro rfl
        rw [space_not_digit] at hx
        cases hx
      · rintro rfl
        rw [space_not_digit] at hy
        cases hy

theorem space_not_mem_of_spellsParam {p : List Char} {s : Frame} (h : spellsParam p s = true) : ' ' ∉ p := by
  rw [spellsParam, Bool.or_eq_true, Bool.and_eq_true, beq_iff_eq] at h
  obtain h | ⟨hzx, h⟩ := h
  · exact space_not_mem_of_spells h
  · rw [← List.take_append_drop 2 p, hzx, List.mem_append, not_or]
    exact ⟨by decide, space_not_mem_of_spells h⟩

theorem space_not_mem_of_forall₂ {params : List (List Char)} {bytes : List Frame}
    (h : List.Forall₂ (fun p s => spellsParam p s = true) params bytes) : ∀ p ∈ params, ' ' ∉ p := by
  induction h with
  | nil => exact List.forall_mem_nil _
  | cons hp _ ih => exact List.forall_mem_cons.mpr ⟨space_not_mem_of_spellsParam hp, ih⟩

/-- Reading all parameters is reading each of them. -/
theorem mapM_eq_some_iff {α β : Type} (f : α → Option β) (l : List α) (r : List β) :
    l.mapM f = some r ↔ List.Forall₂ (fun a b => f a = some b) l r := by
  induction l generalizing r with
  | nil => simp [eq_comm]
  | cons a l ih =>
    simp only [List.mapM_cons, Option.bind_eq_bind, Option.bind_eq_some_iff, Option.pure_def, Option.some.injEq, ih,
      List.forall₂_cons_left_iff]
    constructor
    · rintro ⟨b, hb, bs, hbs, rfl⟩
      exact ⟨b, bs, hb, hbs, rfl⟩
    · rintro ⟨b, bs, hb, hbs, rfl⟩
      exact ⟨b, hb, bs, hbs, rfl⟩

/-! ## The obligations -/

/-- Settles O59: a line is the words it is read as, the first a mnemonic and the others parameters, and the check of the
descriptor is that of the operands' lengths. -/
theorem commandTextAssembles : Obligations.CommandTextAssembles := by
  intro line frame
  constructor
  · intro h
    obtain ⟨w, params, hwords, hline⟩ := exists_wordsFrom [] line
    simp only [assembleText, hwords, Option.bind_eq_bind, Option.bind_eq_some_iff] at h
    obtain ⟨c, hc, bytes, hbytes, h⟩ := h
    split at h
    · next hwf =>
      obtain rfl := (commandNamed_eq_some_iff w c).mp hc
      simp only [mapM_eq_some_iff, paramBytes_eq_some_iff] at hbytes
      exact ⟨c, params, bytes, hline, hbytes, (wellFormed_iff _).mp hwf, (Option.some.inj h).symm⟩
    · cases h
  · rintro ⟨c, params, bytes, rfl, hspells, hlengths, rfl⟩
    have hwords : wordsFrom [] (commandLine c params) = mnemonic c :: params := by
      have hread := wordsFrom_append [] (mnemonic c) (spaced params) (space_not_mem_mnemonic c)
      rw [wordsFrom_spaced _ _ (space_not_mem_of_forall₂ hspells), List.append_nil, List.reverse_reverse] at hread
      exact hread
    have hbytes : params.mapM paramBytes = some bytes := by
      simpa only [mapM_eq_some_iff, paramBytes_eq_some_iff] using hspells
    have hwf := (wellFormed_iff { command := c, operands := bytes }).mpr hlengths
    simp only [assembleText, hwords, commandNamed_mnemonic, hbytes, Option.bind_eq_bind, Option.bind_some, hwf, if_true]
    rfl

/-- Settles O60: a response's format is told by STATUS and its length, and each word is read back from its bytes. -/
theorem responseReadsBack : Obligations.ResponseReadsBack := by
  refine ⟨fun t v hv => ?_, fun v hv => ?_, fun c => ?_⟩
  · have hlo : v % 2 ^ 256 < 2 ^ 256 := Nat.mod_lt _ (by positivity)
    have hhi : v / 2 ^ 256 < 2 ^ 256 := by omega
    have hlen : (toBe 32 (v % 2 ^ 256)).length = 32 := toBe_length _ _
    rw [pairResponse, readResponse, if_pos rfl, if_pos (by simp), List.take_left' hlen, List.drop_left' hlen,
      fromBe_toBe_word hlo, fromBe_toBe_word hhi]
    cases t <;> rfl
  · rw [wordResponse, readResponse, if_pos rfl, if_neg (by simp), if_pos (by simp), fromBe_toBe_word hv]
  · cases c <;> rfl

end Sys2Proof
